-- ==== Sys2Proof/Word.lean ====
section
/-! DEFINITION. The word types of the machine (spec/00_scope.md R5, spec/10_state.md R10 to R15, spec/30_encoding.md R51).
Every quantity is unsigned; there is no sign extension anywhere in this machine (R5, R112). -/

namespace Sys2Proof

/-- A byte: a general register, a timer, a memory byte, an immediate `kk` (R10, R15, R16, R30, R51). -/
abbrev Byte := BitVec 8

/-- A 16-bit word: I, PC, a stack slot, an instruction word (R12, R13, R14, R50). -/
abbrev Word := BitVec 16

/-- A 4-bit number: the count field `n`, a logical key index, the latch `wait_x` (R19, R51, R146). -/
abbrev Nibble := BitVec 4

/-- A register index: the fields `x` and `y`; V0 to VF (R10, R51). -/
abbrev Reg := BitVec 4

/-- A 12-bit address: the field `nnn` (R51) and the argument of `Inspect` (R166). -/
abbrev Addr := BitVec 12

end Sys2Proof
end

