-- ==== Sys2Proof/Config.lean ====
section
/-! DEFINITION. What is fixed for a machine and not state (spec/00_scope.md R4): the constants, the four parameters a model takes
as configuration fields, and the one free value (R23, R111). The spec's defaults of the parameters, which a test could show
wrong, are OpKeys.conventional in Sys2Proof/Decode.lean and Params.specDefault in Sys2Proof/Machine/Params.lean. -/

namespace Sys2Proof.Config

/-- `MEM_SIZE` (R4): addresses 0 to 4095. -/
abbrev memSize : Nat := 4096

/-- `LOAD_BASE` (R4, R43). -/
abbrev loadBase : Nat := 512

/-- The largest program, 4096 - 512 bytes (R43). -/
abbrev maxLoad : Nat := 3584

/-- `STACK_DEPTH` (R4, R14). -/
abbrev stackDepth : Nat := 16

/-- `FB_W` (R4). -/
abbrev fbWidth : Nat := 64

/-- `FB_H` (R4). -/
abbrev fbHeight : Nat := 32

/-- `FB_CELLS` (R4, R17). -/
abbrev fbCells : Nat := 2048

/-- The two readings of the sprite wrap (R4, R135, 90_conflicts.md C1). Log entry 4. -/
inductive WrapMode where
  /-- full modular wrap: the spec's normative reading (R131). -/
  | full
  /-- one conditional adjustment per axis: the other reading (R135). -/
  | singleStep
deriving DecidableEq, Repr

/-- `FONT` (R4, R33): 16 glyphs of 5 bytes. -/
abbrev Font := Vector (Vector Byte 5) 16

/-- `OPKEYS` (R4, R54): the pattern key of each of the 34 instructions, by the name of its constructor in Instr. -/
structure OpKeys where
  cls : Word
  ret : Word
  jp : Word
  call : Word
  seKk : Word
  sneKk : Word
  seXy : Word
  ldKk : Word
  addKk : Word
  ldXy : Word
  orXy : Word
  andXy : Word
  xorXy : Word
  addXy : Word
  subXy : Word
  shr : Word
  subnXy : Word
  shl : Word
  sneXy : Word
  ldI : Word
  jpV0 : Word
  rnd : Word
  drw : Word
  skp : Word
  sknp : Word
  ldXDt : Word
  ldXK : Word
  ldDtX : Word
  ldStX : Word
  addIX : Word
  ldFX : Word
  ldBX : Word
  storeX : Word
  loadX : Word
deriving DecidableEq, Repr

/-- The parameters of a machine that the spec leaves OPEN or two-valued (R4). They are fixed for a machine: the state carries
them (Machine.State.cfg, log entry 24) and nothing changes them. -/
structure Params where
  /-- `RESET_PC` (R172, decision D2). -/
  resetPc : Word
  /-- `FONT` (R33, decision D4). -/
  font : Font
  /-- `OPKEYS` (R54, decision D3). -/
  opKeys : OpKeys
  /-- `WRAP_MODE` (R131, R135, decision D12). -/
  wrapMode : WrapMode
deriving DecidableEq, Repr

/-- The FREE VALUE of this machine: the byte the random source delivers to the n-th RND executed (R111, U8, decision D22).
No body, so nothing can be proved about a value of it; "a free 8-bit input of each step". Log entry 5. -/
opaque rndByte : Nat → Byte

end Sys2Proof.Config
end

