-- ==== Sys2Proof/Syntax.lean ====
section
/-! DEFINITION. The 34 instructions (spec/30_encoding.md R54), one constructor per row of spec/opcode_table.json, in the
table's order. An operand's width is its type, so an operand that does not fit cannot be written. -/

namespace Sys2Proof

/-- The five fields of an instruction word, extracted the same way whatever the instruction (R51). -/
structure Fields where
  nnn : Addr
  n : Nibble
  x : Reg
  y : Reg
  kk : Byte
deriving DecidableEq, Repr

/-- The instructions, by row of R54. `SHR x` and `SHL x` have no y: all 16 values of it decode to the same instruction
(R56). -/
inductive Instr where
  /-- CLS (R130) -/
  | cls
  /-- RET (R90) -/
  | ret
  /-- JP nnn (R91) -/
  | jp (nnn : Addr)
  /-- CALL nnn (R92) -/
  | call (nnn : Addr)
  /-- SE x,kk (R93) -/
  | seKk (x : Reg) (kk : Byte)
  /-- SNE x,kk (R94) -/
  | sneKk (x : Reg) (kk : Byte)
  /-- SE x,y (R95) -/
  | seXy (x y : Reg)
  /-- LD x,kk (R100) -/
  | ldKk (x : Reg) (kk : Byte)
  /-- ADD x,kk (R101) -/
  | addKk (x : Reg) (kk : Byte)
  /-- LD x,y (R102) -/
  | ldXy (x y : Reg)
  /-- OR x,y (R103) -/
  | orXy (x y : Reg)
  /-- AND x,y (R104) -/
  | andXy (x y : Reg)
  /-- XOR x,y (R105) -/
  | xorXy (x y : Reg)
  /-- ADD x,y (R106) -/
  | addXy (x y : Reg)
  /-- SUB x,y (R107) -/
  | subXy (x y : Reg)
  /-- SHR x (R108) -/
  | shr (x : Reg)
  /-- SUBN x,y (R109) -/
  | subnXy (x y : Reg)
  /-- SHL x (R110) -/
  | shl (x : Reg)
  /-- SNE x,y (R96) -/
  | sneXy (x y : Reg)
  /-- LD I,nnn (R120) -/
  | ldI (nnn : Addr)
  /-- JP V0,nnn (R97) -/
  | jpV0 (nnn : Addr)
  /-- RND x,kk (R111) -/
  | rnd (x : Reg) (kk : Byte)
  /-- DRW x,y,n (R132) -/
  | drw (x y : Reg) (n : Nibble)
  /-- SKP x (R140) -/
  | skp (x : Reg)
  /-- SKNP x (R141) -/
  | sknp (x : Reg)
  /-- LD x,DT (R142) -/
  | ldXDt (x : Reg)
  /-- LD x,K (R143) -/
  | ldXK (x : Reg)
  /-- LD DT,x (R144) -/
  | ldDtX (x : Reg)
  /-- LD ST,x (R145) -/
  | ldStX (x : Reg)
  /-- ADD I,x (R121) -/
  | addIX (x : Reg)
  /-- LD F,x (R122) -/
  | ldFX (x : Reg)
  /-- LD B,x (R123) -/
  | ldBX (x : Reg)
  /-- LD [I],x (R124) -/
  | storeX (x : Reg)
  /-- LD x,[I] (R125) -/
  | loadX (x : Reg)
deriving DecidableEq, Repr

end Sys2Proof
end

