-- ==== Sys2Proof/WellFormed.lean ====
section
/-! DEFINITION. Well-formedness. Instr carries every operand's width in its type (spec/30_encoding.md R51), so the check that
can fail is on operands still written as plain numbers: each must fit its field. -/

namespace Sys2Proof

/-- Operands as plain numbers, before anything is known of their size. -/
structure RawFields where
  nnn : Nat := 0
  n : Nat := 0
  x : Nat := 0
  y : Nat := 0
  kk : Nat := 0
deriving DecidableEq, Repr

/-- Each operand fits the width R51 gives its field. -/
def RawFields.wellFormed (r : RawFields) : Bool :=
  decide (r.nnn < 4096) && decide (r.n < 16) && decide (r.x < 16) && decide (r.y < 16) && decide (r.kk < 256)

/-- The typed fields of well-formed operands; operands that do not fit are refused, never truncated. -/
def RawFields.toFields (r : RawFields) : Option Fields :=
  if r.wellFormed then
    some ⟨BitVec.ofNat 12 r.nnn, BitVec.ofNat 4 r.n, BitVec.ofNat 4 r.x, BitVec.ofNat 4 r.y, BitVec.ofNat 8 r.kk⟩
  else none

/-- The operands of an instruction as numbers, 0 for a field it does not have (R52, R54). -/
def Instr.rawFields : Instr → RawFields
  | .cls => {}
  | .ret => {}
  | .jp nnn => { nnn := nnn.toNat }
  | .call nnn => { nnn := nnn.toNat }
  | .seKk x kk => { x := x.toNat, kk := kk.toNat }
  | .sneKk x kk => { x := x.toNat, kk := kk.toNat }
  | .seXy x y => { x := x.toNat, y := y.toNat }
  | .ldKk x kk => { x := x.toNat, kk := kk.toNat }
  | .addKk x kk => { x := x.toNat, kk := kk.toNat }
  | .ldXy x y => { x := x.toNat, y := y.toNat }
  | .orXy x y => { x := x.toNat, y := y.toNat }
  | .andXy x y => { x := x.toNat, y := y.toNat }
  | .xorXy x y => { x := x.toNat, y := y.toNat }
  | .addXy x y => { x := x.toNat, y := y.toNat }
  | .subXy x y => { x := x.toNat, y := y.toNat }
  | .shr x => { x := x.toNat }
  | .subnXy x y => { x := x.toNat, y := y.toNat }
  | .shl x => { x := x.toNat }
  | .sneXy x y => { x := x.toNat, y := y.toNat }
  | .ldI nnn => { nnn := nnn.toNat }
  | .jpV0 nnn => { nnn := nnn.toNat }
  | .rnd x kk => { x := x.toNat, kk := kk.toNat }
  | .drw x y n => { x := x.toNat, y := y.toNat, n := n.toNat }
  | .skp x => { x := x.toNat }
  | .sknp x => { x := x.toNat }
  | .ldXDt x => { x := x.toNat }
  | .ldXK x => { x := x.toNat }
  | .ldDtX x => { x := x.toNat }
  | .ldStX x => { x := x.toNat }
  | .addIX x => { x := x.toNat }
  | .ldFX x => { x := x.toNat }
  | .ldBX x => { x := x.toNat }
  | .storeX x => { x := x.toNat }
  | .loadX x => { x := x.toNat }

/-- An instruction is well formed when its operands fit; by the types every instruction is
(Sys2Proof.Laws.wellFormed_all). -/
def Instr.wellFormed (i : Instr) : Bool := i.rawFields.wellFormed

end Sys2Proof
end

