-- ==== Sys2Proof/Decode.lean ====
section
/-! DEFINITION. Decoding and encoding (spec/30_encoding.md R50 to R57), for any `OPKEYS`, and the spec's default of it. -/

namespace Sys2Proof

open Config

/-- Two consecutive memory bytes as an instruction word, big-endian (R34, R50). -/
def wordOfBytes (hi lo : Byte) : Word := hi ++ lo

/-- The two bytes of a word as memory holds them, the high byte at the lower address (R34). -/
def bytesOfWord (op : Word) : List Byte := [op.extractLsb' 8 8, op.extractLsb' 0 8]

/-- The fields of a word, at the positions of R51. -/
def fieldsOf (op : Word) : Fields where
  nnn := op.extractLsb' 0 12
  n := op.extractLsb' 0 4
  x := op.extractLsb' 8 4
  y := op.extractLsb' 4 4
  kk := op.extractLsb' 0 8

/-- `OPKEYS` at the spec's default (R54). The values are supplied from general knowledge (decision D3): PRESUMED by the spec, log
entry 2. -/
def Config.OpKeys.conventional : OpKeys where
  cls := 0x00E0
  ret := 0x00EE
  jp := 0x1000
  call := 0x2000
  seKk := 0x3000
  sneKk := 0x4000
  seXy := 0x5000
  ldKk := 0x6000
  addKk := 0x7000
  ldXy := 0x8000
  orXy := 0x8001
  andXy := 0x8002
  xorXy := 0x8003
  addXy := 0x8004
  subXy := 0x8005
  shr := 0x8006
  subnXy := 0x8007
  shl := 0x800E
  sneXy := 0x9000
  ldI := 0xA000
  jpV0 := 0xB000
  rnd := 0xC000
  drw := 0xD000
  skp := 0xE09E
  sknp := 0xE0A1
  ldXDt := 0xF007
  ldXK := 0xF00A
  ldDtX := 0xF015
  ldStX := 0xF018
  addIX := 0xF01E
  ldFX := 0xF029
  ldBX := 0xF033
  storeX := 0xF055
  loadX := 0xF065

/-- The key of an instruction (R54). -/
def Config.OpKeys.keyOf (k : OpKeys) : Instr → Word
  | .cls => k.cls
  | .ret => k.ret
  | .jp _ => k.jp
  | .call _ => k.call
  | .seKk _ _ => k.seKk
  | .sneKk _ _ => k.sneKk
  | .seXy _ _ => k.seXy
  | .ldKk _ _ => k.ldKk
  | .addKk _ _ => k.addKk
  | .ldXy _ _ => k.ldXy
  | .orXy _ _ => k.orXy
  | .andXy _ _ => k.andXy
  | .xorXy _ _ => k.xorXy
  | .addXy _ _ => k.addXy
  | .subXy _ _ => k.subXy
  | .shr _ => k.shr
  | .subnXy _ _ => k.subnXy
  | .shl _ => k.shl
  | .sneXy _ _ => k.sneXy
  | .ldI _ => k.ldI
  | .jpV0 _ => k.jpV0
  | .rnd _ _ => k.rnd
  | .drw _ _ _ => k.drw
  | .skp _ => k.skp
  | .sknp _ => k.sknp
  | .ldXDt _ => k.ldXDt
  | .ldXK _ => k.ldXK
  | .ldDtX _ => k.ldDtX
  | .ldStX _ => k.ldStX
  | .addIX _ => k.addIX
  | .ldFX _ => k.ldFX
  | .ldBX _ => k.ldBX
  | .storeX _ => k.storeX
  | .loadX _ => k.loadX

/-- One row of the opcode map: the key, and the instruction made of the word's fields (R54). -/
structure Row where
  key : Word
  build : Fields → Instr

/-- Tier 1: the whole word (R53). -/
def mask1 : Word := 0xFFFF
/-- Tier 2: leading nibble and trailing byte (R53). -/
def mask2 : Word := 0xF0FF
/-- Tier 3: leading and trailing nibble (R53). -/
def mask3 : Word := 0xF00F
/-- Tier 4: leading nibble (R53). -/
def mask4 : Word := 0xF000

/-- The rows of format Z (R52, R54). -/
def tier1 (k : OpKeys) : List Row :=
  [⟨k.cls, fun _ => .cls⟩, ⟨k.ret, fun _ => .ret⟩]

/-- The rows of format X (R52, R54). -/
def tier2 (k : OpKeys) : List Row :=
  [⟨k.skp, fun f => .skp f.x⟩, ⟨k.sknp, fun f => .sknp f.x⟩, ⟨k.ldXDt, fun f => .ldXDt f.x⟩,
   ⟨k.ldXK, fun f => .ldXK f.x⟩, ⟨k.ldDtX, fun f => .ldDtX f.x⟩, ⟨k.ldStX, fun f => .ldStX f.x⟩,
   ⟨k.addIX, fun f => .addIX f.x⟩, ⟨k.ldFX, fun f => .ldFX f.x⟩, ⟨k.ldBX, fun f => .ldBX f.x⟩,
   ⟨k.storeX, fun f => .storeX f.x⟩, ⟨k.loadX, fun f => .loadX f.x⟩]

/-- The rows of format XY (R52, R54). -/
def tier3 (k : OpKeys) : List Row :=
  [⟨k.seXy, fun f => .seXy f.x f.y⟩, ⟨k.ldXy, fun f => .ldXy f.x f.y⟩, ⟨k.orXy, fun f => .orXy f.x f.y⟩,
   ⟨k.andXy, fun f => .andXy f.x f.y⟩, ⟨k.xorXy, fun f => .xorXy f.x f.y⟩, ⟨k.addXy, fun f => .addXy f.x f.y⟩,
   ⟨k.subXy, fun f => .subXy f.x f.y⟩, ⟨k.shr, fun f => .shr f.x⟩, ⟨k.subnXy, fun f => .subnXy f.x f.y⟩,
   ⟨k.shl, fun f => .shl f.x⟩, ⟨k.sneXy, fun f => .sneXy f.x f.y⟩]

/-- The rows of formats A, XK and XYN (R52, R54). -/
def tier4 (k : OpKeys) : List Row :=
  [⟨k.jp, fun f => .jp f.nnn⟩, ⟨k.call, fun f => .call f.nnn⟩, ⟨k.seKk, fun f => .seKk f.x f.kk⟩,
   ⟨k.sneKk, fun f => .sneKk f.x f.kk⟩, ⟨k.ldKk, fun f => .ldKk f.x f.kk⟩, ⟨k.addKk, fun f => .addKk f.x f.kk⟩,
   ⟨k.ldI, fun f => .ldI f.nnn⟩, ⟨k.jpV0, fun f => .jpV0 f.nnn⟩, ⟨k.rnd, fun f => .rnd f.x f.kk⟩,
   ⟨k.drw, fun f => .drw f.x f.y f.n⟩]

/-- The keys with the masks they are compared under, in the order of the tiers (R53). -/
def maskedKeys (k : OpKeys) : List (Word × Word) :=
  (tier1 k).map (fun r => (mask1, r.key)) ++ (tier2 k).map (fun r => (mask2, r.key)) ++
    (tier3 k).map (fun r => (mask3, r.key)) ++ (tier4 k).map (fun r => (mask4, r.key))

/-- No word matches two keys: no key, under the mask of a key after it, is that key. -/
def keysApart : List (Word × Word) → Bool
  | [] => true
  | p :: ps => ps.all (fun q => p.2 &&& q.1 != q.2) && keysApart ps

/-- What makes a choice of `OPKEYS` one in which each instruction has its words (R53): every key lies under its tier's mask, and
no word matches two keys. The spec says it of its default: "no word matches at two tiers". -/
def Config.OpKeys.wellFormed (k : OpKeys) : Bool :=
  (maskedKeys k).all (fun p => p.2 &&& p.1 == p.2) && keysApart (maskedKeys k)

/-- The instruction a word selects at one tier: the row whose key is the masked word (R53). -/
def lookupTier (mask : Word) (rows : List Row) (op : Word) : Option Instr :=
  (rows.find? (fun r => op &&& mask == r.key)).map (fun r => r.build (fieldsOf op))

/-- The four tiers in order, each instruction matched only at its own tier (R53, strict reading, decision D5, log entry 3);
`none` is an undecodable word (R55). -/
def lookup (k : OpKeys) (op : Word) : Option Instr :=
  lookupTier mask1 (tier1 k) op <|> lookupTier mask2 (tier2 k) op <|> lookupTier mask3 (tier3 k) op <|>
    lookupTier mask4 (tier4 k) op

/-- Why bytes are no instruction. -/
inductive DecodeError where
  /-- fewer than two bytes: no instruction word (R50). -/
  | truncated
  /-- the word matches no key of R54 (R55). -/
  | undecodable (op : Word)
deriving DecidableEq, Repr

/-- Decoding of any bytes: the instruction and the bytes after it, or the reason there is none. -/
def decode (k : OpKeys) : List Byte → Except DecodeError (Instr × List Byte)
  | hi :: lo :: rest =>
    match lookup k (wordOfBytes hi lo) with
    | some i => .ok (i, rest)
    | none => .error (.undecodable (wordOfBytes hi lo))
  | _ => .error .truncated

/-- The operands of an instruction in their places (R51, R52); the ignored y of SHR and SHL is written as 0 (R56). -/
def Instr.operandBits : Instr → Word
  | .cls | .ret => 0
  | .jp nnn | .call nnn | .ldI nnn | .jpV0 nnn => 0#4 ++ nnn
  | .seKk x kk | .sneKk x kk | .ldKk x kk | .addKk x kk | .rnd x kk => 0#4 ++ x ++ kk
  | .seXy x y | .ldXy x y | .orXy x y | .andXy x y | .xorXy x y | .addXy x y | .subXy x y | .subnXy x y | .sneXy x y =>
    0#4 ++ x ++ y ++ 0#4
  | .shr x | .shl x | .skp x | .sknp x | .ldXDt x | .ldXK x | .ldDtX x | .ldStX x | .addIX x | .ldFX x | .ldBX x
  | .storeX x | .loadX x => 0#4 ++ x ++ 0#8
  | .drw x y n => 0#4 ++ x ++ y ++ n

/-- The word of an instruction: its key with its operands in their places (R54). -/
def encodeWord (k : OpKeys) (i : Instr) : Word := k.keyOf i ||| i.operandBits

/-- The bytes of an instruction as memory holds them (R34, R50). -/
def encode (k : OpKeys) (i : Instr) : List Byte := bytesOfWord (encodeWord k i)

/-- The mask under which an instruction is recognised: its tier's (R53, R54). -/
def Instr.mask : Instr → Word
  | .cls | .ret => mask1
  | .skp _ | .sknp _ | .ldXDt _ | .ldXK _ | .ldDtX _ | .ldStX _ | .addIX _ | .ldFX _ | .ldBX _ | .storeX _ | .loadX _ => mask2
  | .seXy _ _ | .ldXy _ _ | .orXy _ _ | .andXy _ _ | .xorXy _ _ | .addXy _ _ | .subXy _ _ | .shr _ | .subnXy _ _ | .shl _
  | .sneXy _ _ => mask3
  | .jp _ | .call _ | .seKk _ _ | .sneKk _ _ | .ldKk _ _ | .addKk _ _ | .ldI _ | .jpV0 _ | .rnd _ _ | .drw _ _ _ => mask4

/-- The first instruction word of a table row given as bits (bit 0 the least significant of the word, the bits above
`nbits` zero). Every instruction is one word, so later words do not matter (R50). -/
def tableWord (nbits w : Nat) : Word := BitVec.ofNat 16 (w % 2 ^ nbits)

/-- The instruction the decoder reads from such a word, laid out in memory's byte order, with the keys of R54. -/
def decodeTableWord (nbits w : Nat) : Option Instr :=
  match decode OpKeys.conventional (bytesOfWord (tableWord nbits w)) with
  | .ok (i, _) => some i
  | .error _ => none

end Sys2Proof
end

