-- ==== Sys2Proof/Machine/Params.lean ====
section
/-! DEFINITION. The spec's defaults of the parameters of spec/00_scope.md R4. -/

namespace Sys2Proof.Machine

open Sys2Proof

/-- `FONT` at the spec's default: glyph g is the bytes from address 5 * g (R33). PRESUMED by the spec (from general knowledge,
decision D4). Log entry 2. -/
def defaultFont : Config.Font :=
  #v[#v[0xF0, 0x90, 0x90, 0x90, 0xF0], #v[0x20, 0x60, 0x20, 0x20, 0x70], #v[0xF0, 0x10, 0xF0, 0x80, 0xF0],
     #v[0xF0, 0x10, 0xF0, 0x10, 0xF0], #v[0x90, 0x90, 0xF0, 0x10, 0x10], #v[0xF0, 0x80, 0xF0, 0x10, 0xF0],
     #v[0xF0, 0x80, 0xF0, 0x90, 0xF0], #v[0xF0, 0x10, 0x20, 0x40, 0x40], #v[0xF0, 0x90, 0xF0, 0x90, 0xF0],
     #v[0xF0, 0x90, 0xF0, 0x10, 0xF0], #v[0xF0, 0x90, 0xF0, 0x90, 0x90], #v[0xE0, 0x90, 0xE0, 0x90, 0xE0],
     #v[0xF0, 0x80, 0x80, 0x80, 0xF0], #v[0xE0, 0x90, 0x90, 0x90, 0xE0], #v[0xF0, 0x80, 0xF0, 0x80, 0xF0],
     #v[0xF0, 0x80, 0xF0, 0x80, 0x80]]

/-- The parameters at the spec's defaults: `RESET_PC` = 512 (R172, decision D2: DESIGN CHOICE of the spec, log entry 1), `FONT`
(R33) and `OPKEYS` (R54), both log entry 2, and `WRAP_MODE` = full (R131, decision D12, 90_conflicts.md C1, log entry 4). -/
def specDefault : Config.Params where
  resetPc := 512
  font := defaultFont
  opKeys := Config.OpKeys.conventional
  wrapMode := .full

end Sys2Proof.Machine
end

