-- ==== Sys2Proof/Machine/State.lean ====
section
/-! DEFINITION. The state of the machine (spec/10_state.md, table of R25), as plain data, with the record of the outputs of
the latest step (spec/40_engine_step.md R82), the faults (spec/60_exceptions.md R150) and the state after construction. -/

namespace Sys2Proof.Machine

open Sys2Proof

/-- Whether an address was refused by the fetch or by a data access (R150, code 4: "fetch or data"). -/
inductive Access where
  | fetch
  | data
deriving DecidableEq, Repr

/-- The faults of R150. The machine never stops on one: a fault is a value in the output record of the step that raised it and
the machine goes on (R70, R76, R158), so `step` answers `next` with the fault in `State.out.fault` and never
`Host.Outcome.fault`. Safe: nothing is left out. -/
inductive Fault where
  /-- Code 1. Raised by a Running step whose word matches no key: its address and the word (R151). Safe. -/
  | decodeFault (address : Word) (op : Word)
  /-- Code 2. Raised by CALL with SP = 16: its address and the return address (R152). Safe. -/
  | stackOverflow (address : Word) (returnAddress : Word)
  /-- Code 3. Raised by RET with SP = 0: its address (R153). Safe. -/
  | stackUnderflow (address : Word)
  /-- Code 4. Raised by the fetch with the PC it used (R37, R72) and by DRW, LD B, LD [I] and LD x,[I] with the highest address
  they would touch (R123, R124, R125, R132). Log entry 7. Safe. -/
  | addressRange (access : Access) (address : Nat)
  /-- Code 5. The result of a `Load` of this many bytes; no step raises it (R155). Safe. -/
  | loadError (length : Nat)
deriving DecidableEq, Repr

/-- The reasons `step` has no meaning for an instruction. -/
inductive Refusal where
  /-- An instruction that has no meaning yet, by its mnemonic in the opcode table. No arm answers it: every row is modelled.
  Safe. -/
  | notModelled (mnemonic : String)
  /-- Answered by DRW in a machine whose `WRAP_MODE` is `single_step`, for a pixel whose linear index is above 2047 (R135, U13: "no
  meaning"). Never answered in the normative mode. Safe. -/
  | pixelOutsideFramebuffer
deriving DecidableEq, Repr

/-- What a trace record carries beside the address (R80). -/
inductive TraceBody where
  /-- the fetch faulted: there is no word. -/
  | noWord
  /-- the "invalid opcode" record. -/
  | invalidOpcode (op : Word)
  /-- the word and the instruction found. -/
  | instruction (op : Word) (i : Instr)
deriving DecidableEq, Repr

/-- A trace record: the fetch address and what was found there (R61, R80). -/
structure TraceRecord where
  address : Word
  body : TraceBody
deriving DecidableEq, Repr

/-- The 2048 one-bit cells, row-major, width 64: 32 rows of 64 cells. The cell of column px and row py, linear index
`px + 64 * py`, is bit px of row py (R17). -/
abbrev Framebuffer := Vector (BitVec 64) 32

/-- The output record of a step (R82). -/
structure StepOutput where
  fault : Option Fault := none
  frame : Option Framebuffer := none
  trace : Option TraceRecord := none
  tone : Bool := false
deriving DecidableEq, Repr

/-- The run/wait state of the engine (R18); no privilege level (R160). -/
inductive Mode where
  | running
  | waitingForKey
deriving DecidableEq, Repr

/-- Memory: the bytes that differ from the reset contents, by rising address (Memory.wf in Sys2Proof/Machine/Ops.lean). -/
abbrev Memory := List Host.Cell

/-- Every piece of state of R25, and three fields that are the model's own: `cfg`, `rndIndex` and `out`. -/
structure State where
  /-- The MODEL'S OWN: the parameters of the machine (R4), not state of it: no operation changes them. Log entry 24. -/
  cfg : Config.Params
  /-- V0 to VF (R10). -/
  v : Vector Byte 16
  /-- the index register I (R12). -/
  i : Word
  /-- the program counter (R13). -/
  pc : Word
  /-- SP, the number of occupied stack slots, 0 to 16 (R14). -/
  sp : Fin 17
  /-- the 16 stack slots (R14). -/
  stack : Vector Word 16
  /-- the delay timer (R15). -/
  dt : Byte
  /-- the sound timer (R16). -/
  st : Byte
  /-- memory, 4096 bytes (R30). -/
  mem : Memory
  /-- the framebuffer (R17). -/
  fb : Framebuffer
  /-- Running or WaitingForKey (R18). -/
  mode : Mode
  /-- `wait_x` (R19). -/
  waitX : Reg
  /-- the redraw request (R20). -/
  redraw : Bool
  /-- the 16 key flags (R21). -/
  keys : Vector Bool 16
  /-- the last key pressed and not released since (R21). -/
  held : Option Nibble
  /-- `load_len`, 0 to 3584 (R22). -/
  loadLen : Nat
  /-- The MODEL'S OWN: how many random bytes have been drawn, the argument of the free value Config.rndByte. Log entry 5. -/
  rndIndex : Nat
  /-- The MODEL'S OWN: the output record of the latest step, which the spec returns from `Step` (R82). Log entry 6. -/
  out : StepOutput
deriving DecidableEq, Repr

/-- A machine with these parameters after construction, which is `Reset` with no key down (R25, R170, R171). Memory lists nothing:
an unlisted byte reads as its reset contents (Memory.unlisted). -/
def State.resetWith (c : Config.Params) : State where
  cfg := c
  v := Vector.replicate 16 0
  i := 0
  pc := c.resetPc
  sp := 0
  stack := Vector.replicate 16 0
  dt := 0
  st := 0
  mem := []
  fb := Vector.replicate 32 0
  mode := .running
  waitX := 0
  redraw := false
  keys := Vector.replicate 16 false
  held := none
  loadLen := 0
  rndIndex := 0
  out := {}

/-- The machine after construction, with the spec's default of every parameter (R4, R25). -/
def State.reset : State := State.resetWith specDefault

end Sys2Proof.Machine
end

