-- ==== Sys2Proof/Machine/Ops.lean ====
section
/-! DEFINITION. The named operations over memory, registers and the stack, and raising a fault. -/

namespace Sys2Proof.Machine

open Sys2Proof

/-- What an instruction, and a step, answers. -/
abbrev Result := Host.Outcome State Fault Refusal

/-! ### Memory (spec/20_memory.md) -/

/-- What an address nothing has written reads as: its reset contents, the font at 0 to 79 and 0 elsewhere (R25, R32). -/
def Memory.unlisted (f : Config.Font) (a : Nat) : Byte :=
  if h : a < 80 then (f[a / 5]'(Nat.div_lt_of_lt_mul h))[a % 5]'(Nat.mod_lt a (Nat.succ_pos 4)) else 0

/-- The byte at an address, for an address that has passed the range check (R37). -/
def Memory.read (f : Config.Font) (m : Memory) (a : Nat) : Byte :=
  match m with
  | [] => Memory.unlisted f a
  | c :: m => if c.1 = a then c.2 else Memory.read f m a

/-- A listed byte at its place in the rising order. -/
def Memory.insert (m : Memory) (a : Nat) (b : Byte) : Memory :=
  match m with
  | [] => [(a, b)]
  | c :: m => if a < c.1 then (a, b) :: c :: m else c :: Memory.insert m a b

/-- Stores one byte (R37), for an address that has passed the range check. A byte equal to the reset contents is not
listed. -/
def Memory.write (f : Config.Font) (m : Memory) (a : Nat) (b : Byte) : Memory :=
  let rest := m.filter (fun c => c.1 != a)
  if b = Memory.unlisted f a then rest else Memory.insert rest a b

/-- Stores bytes at rising addresses (R40, R43, R124). -/
def Memory.writeBytes (f : Config.Font) (m : Memory) (a : Nat) : List Byte → Memory
  | [] => m
  | b :: bs => Memory.writeBytes f (Memory.write f m a b) (a + 1) bs

/-- The canonical form: addresses of the memory, strictly rising, and no byte equal to the reset contents. -/
abbrev Memory.wf (f : Config.Font) (m : Memory) : Prop :=
  m.Pairwise (fun c d => c.1 < d.1) ∧ ∀ c ∈ m, c.1 < Config.memSize ∧ c.2 ≠ Memory.unlisted f c.1

/-- `mem[a]` (R30). -/
def State.byte (s : State) (a : Nat) : Byte := Memory.read s.cfg.font s.mem a

/-- The bytes at `n` rising addresses. -/
def State.bytes (s : State) (a n : Nat) : List Byte := (List.range n).map (fun k => s.byte (a + k))

/-- Stores bytes from an address on. -/
def State.storeBytes (s : State) (a : Nat) (bs : List Byte) : State :=
  { s with mem := Memory.writeBytes s.cfg.font s.mem a bs }

/-! ### Registers (spec/10_state.md) -/

/-- `V[x]` (R10). -/
def State.reg (s : State) (x : Reg) : Byte := s.v[x.toNat]'(x.isLt)

/-- `V[x] <- b` (R10). No register is hard-wired. -/
def State.setReg (s : State) (x : Reg) (b : Byte) : State := { s with v := s.v.set x.toNat b x.isLt }

/-- The register that receives flags (R11). -/
abbrev VF : Reg := 15

/-- `I <- w` (R12). -/
def State.setI (s : State) (w : Word) : State := { s with i := w }

/-- `PC <- w` (R13). -/
def State.setPc (s : State) (w : Word) : State := { s with pc := w }

/-- `DT <- b` (R15). -/
def State.setDt (s : State) (b : Byte) : State := { s with dt := b }

/-- `ST <- b` (R16). -/
def State.setSt (s : State) (b : Byte) : State := { s with st := b }

/-- Writes the framebuffer and requests a redraw (R20, R130, R132). -/
def State.redrawWith (s : State) (fb : Framebuffer) : State := { s with fb := fb, redraw := true }

/-! ### The framebuffer (R17) -/

/-- Every cell 0 (R130). -/
def Framebuffer.clear : Framebuffer := Vector.replicate 32 0

/-- The cell with this linear index; there is none above 2047. -/
def Framebuffer.cell (fb : Framebuffer) (k : Nat) : Bool :=
  if h : k < Config.fbCells then (fb[k / 64]'(Nat.div_lt_of_lt_mul h)).getLsbD (k % 64) else false

/-- `fb[k] <- fb[k] ^ 1`. -/
def Framebuffer.toggle (fb : Framebuffer) (k : Nat) : Framebuffer :=
  if h : k < Config.fbCells then
    fb.set (k / 64) (fb[k / 64]'(Nat.div_lt_of_lt_mul h) ^^^ BitVec.twoPow 64 (k % 64)) (Nat.div_lt_of_lt_mul h)
  else fb

/-! ### Skips, the address of the instruction, the tone -/

/-- `skip` (R98): PC past the next two bytes, mod 65536. -/
def State.skip (s : State) : State := s.setPc (s.pc + 2)

/-- `skip` under a condition. -/
def State.skipIf (s : State) (c : Bool) : State := if c then s.skip else s

/-- The address of the instruction being executed: PC already holds the one after it (R73). -/
def State.instrAddress (s : State) : Word := s.pc - 2

/-- The level output `tone` (R79). -/
def State.tone (s : State) : Bool := decide (0 < s.st.toNat)

/-! ### The call stack (R14) -/

/-- `Push(v)`: `none` when SP = 16. -/
def State.push (s : State) (w : Word) : Option State :=
  if h : s.sp.val < 16 then
    some { s with stack := s.stack.set s.sp.val w h, sp := ⟨s.sp.val + 1, Nat.succ_lt_succ h⟩ }
  else none

/-- `Pop()`: the popped value and the state after it, `none` when SP = 0. The slot keeps its value. -/
def State.pop (s : State) : Option (Word × State) :=
  if h : 0 < s.sp.val then
    some (s.stack[s.sp.val - 1]'(by have := s.sp.isLt; omega),
      { s with sp := ⟨s.sp.val - 1, Nat.lt_of_le_of_lt (Nat.sub_le _ _) s.sp.isLt⟩ })
  else none

/-! ### Faults (spec/60_exceptions.md) -/

/-- A state with a fault in its output record. -/
def State.withFault (s : State) (f : Fault) : State := { s with out := { s.out with fault := some f } }

/-- `raise f` in the execute phase: the phase keeps no write, and the fault goes to the step's output (R76, R158). No
register is saved and control goes nowhere else: there is no trap entry, hence no return from one (R158, R159). -/
def raise (f : Fault) (s : State) : Result := .next (s.withFault f)

/-- The range check of an instruction, on the highest address it would touch, made before its first access (R38). -/
def guardRange (top : Nat) (s : State) (r : Result) : Result :=
  if top < Config.memSize then r else raise (.addressRange .data top) s

/-- The numeric code of a fault; 0 stands for none (R150). -/
def Fault.code : Option Fault → Nat
  | none => 0
  | some (.decodeFault _ _) => 1
  | some (.stackOverflow _ _) => 2
  | some (.stackUnderflow _) => 3
  | some (.addressRange _ _) => 4
  | some (.loadError _) => 5

/-- The highest offending address an `AddressRange` reports (R150): a fetch that carries its PC would read PC + 1 too. -/
def Fault.highestAddress : Fault → Option Nat
  | .addressRange .fetch a => some (a + 1)
  | .addressRange .data a => some a
  | .decodeFault _ _ | .stackOverflow _ _ | .stackUnderflow _ | .loadError _ => none

end Sys2Proof.Machine
end

