-- ==== Sys2Proof/Machine/Operands.lean ====
section
/-! DEFINITION. The operand forms: immediates, addresses through I, digits, keys and sprite pixels. -/

namespace Sys2Proof.Machine

open Sys2Proof

/-- `zext_16` of a 12-bit address (R51). -/
def zextAddr (nnn : Addr) : Word := nnn.setWidth 16

/-- `zext_16` of a byte (R5). -/
def zextByte (b : Byte) : Word := b.setWidth 16

/-- `zext_8` of a key index (R81). -/
def zextNibble (k : Nibble) : Byte := k.setWidth 8

/-- The one data addressing mode: the integer I + offset, not reduced (R126). -/
def dataAddr (s : State) (offset : Nat) : Nat := s.i.toNat + offset

/-- The three decimal digits of a byte, hundreds first (R123). -/
def decimalDigits (b : Byte) : List Byte :=
  [BitVec.ofNat 8 (b.toNat / 100), BitVec.ofNat 8 (b.toNat / 10 % 10), BitVec.ofNat 8 (b.toNat % 10)]

/-- `KeyDown(k)`: a key numbered above 15 does not exist and is not pressed (R147). -/
def State.keyDown (s : State) (k : Byte) : Bool := if h : k.toNat < 16 then s.keys[k.toNat] else false

/-- The values of V0 to Vx, in index order (R124). -/
def State.regsThrough (s : State) (x : Reg) : List Byte := s.v.toList.take (x.toNat + 1)

/-- V0 to Vx loaded from memory from I on, the registers above x as they were (R125). -/
def State.loadRegsThrough (s : State) (x : Reg) : State :=
  { s with v := Vector.ofFn (fun r : Fin 16 =>
      if r.val ≤ x.toNat then s.byte (dataAddr s r.val) else s.v[r.val]) }

/-! ### Pixels (spec/44_display.md) -/

/-- One conditional adjustment by the span of an axis (R135); coordinates are never negative. -/
def wrapOnce (p span : Nat) : Nat := if span ≤ p then p - span else p

/-- The linear index of a pixel (R131 for `full`, R135 for `singleStep`). -/
def pixelIndex (m : Config.WrapMode) (px py : Nat) : Nat :=
  match m with
  | .full => px % Config.fbWidth + Config.fbWidth * (py % Config.fbHeight)
  | .singleStep => wrapOnce px Config.fbWidth + Config.fbWidth * wrapOnce py Config.fbHeight

/-- `SetPixel(px, py)`: the cell toggled, and whether it is now 0; `none` where the index is no cell (R131, R135). -/
def setPixel (m : Config.WrapMode) (fb : Framebuffer) (px py : Nat) : Option (Framebuffer × Bool) :=
  let k := pixelIndex m px py
  if k < Config.fbCells then
    let fb' := fb.toggle k
    some (fb', !fb'.cell k)
  else none

/-- The pixels of a sprite row, bit 7 first (R132). -/
def rowPixels (px py : Nat) (b : Byte) : List (Nat × Nat) :=
  (List.range 8).filterMap (fun col => if b.getLsbD (7 - col) then some (px + col, py) else none)

/-- The pixels of a sprite's set bits, row by row from its origin (R132). -/
def spritePixels (px py : Nat) : List Byte → List (Nat × Nat)
  | [] => []
  | b :: bs => rowPixels px py b ++ spritePixels px (py + 1) bs

/-- `SetPixel` on each pixel in turn, with whether any was erased. -/
def setPixels (m : Config.WrapMode) (fb : Framebuffer) : List (Nat × Nat) → Option (Framebuffer × Bool)
  | [] => some (fb, false)
  | p :: ps =>
    match setPixel m fb p.1 p.2 with
    | none => none
    | some (fb', erased) =>
      match setPixels m fb' ps with
      | none => none
      | some (fb'', erased') => some (fb'', erased || erased')

/-- The sprite DRW reads: n bytes from I on (R132). -/
def spriteRows (s : State) (n : Nibble) : List Byte := s.bytes (dataAddr s 0) n.toNat

end Sys2Proof.Machine
end

