-- ==== Sys2Proof/Machine/Flags.lean ====
section
/-! DEFINITION. The flags: the values VF receives (spec/10_state.md R11, spec/42_alu.md R106 to R110, R113). There is no other
flag in the machine (R11). -/

namespace Sys2Proof.Machine

open Sys2Proof

/-- A 0-or-1 flag as a register value (R11). -/
def flagByte (c : Bool) : Byte := if c then 1 else 0

/-- Carry of ADD x,y: the raw sum exceeds 255 (R106). -/
def carryFlag (a b : Byte) : Bool := decide (255 < a.toNat + b.toNat)

/-- Strict unsigned greater-than of SUB and SUBN; equality gives 0 (R107, R109, R112). -/
def greaterFlag (a b : Byte) : Bool := decide (b.toNat < a.toNat)

/-- The bit SHR shifts out (R108). -/
def lowBitFlag (a : Byte) : Bool := a.getLsbD 0

/-- The bit SHL shifts out (R110). -/
def highBitFlag (a : Byte) : Bool := a.getLsbD 7

/-- The write order of a flag-writing instruction: VF first, the result second, so the result stands when x is 15 (R75,
R113). -/
def State.setFlagThenReg (s : State) (flag : Bool) (x : Reg) (result : Byte) : State :=
  (s.setReg VF (flagByte flag)).setReg x result

end Sys2Proof.Machine
end

