-- ==== Sys2Proof/Machine/Alu.lean ====
section
/-! DEFINITION. The register ALU (spec/42_alu.md). Sources are the values before the instruction (R74). -/

namespace Sys2Proof.Machine

open Sys2Proof

/-- LD x,kk (R100). -/
def execLdKk (x : Reg) (kk : Byte) (s : State) : Result := .next (s.setReg x kk)

/-- ADD x,kk (R101): no flag. -/
def execAddKk (x : Reg) (kk : Byte) (s : State) : Result := .next (s.setReg x (s.reg x + kk))

/-- LD x,y (R102). -/
def execLdXy (x y : Reg) (s : State) : Result := .next (s.setReg x (s.reg y))

/-- OR x,y (R103). -/
def execOrXy (x y : Reg) (s : State) : Result := .next (s.setReg x (s.reg x ||| s.reg y))

/-- AND x,y (R104). -/
def execAndXy (x y : Reg) (s : State) : Result := .next (s.setReg x (s.reg x &&& s.reg y))

/-- XOR x,y (R105). -/
def execXorXy (x y : Reg) (s : State) : Result := .next (s.setReg x (s.reg x ^^^ s.reg y))

/-- ADD x,y (R106): the modulus is 256. -/
def execAddXy (x y : Reg) (s : State) : Result :=
  .next (s.setFlagThenReg (carryFlag (s.reg x) (s.reg y)) x (s.reg x + s.reg y))

/-- SUB x,y (R107). -/
def execSubXy (x y : Reg) (s : State) : Result :=
  .next (s.setFlagThenReg (greaterFlag (s.reg x) (s.reg y)) x (s.reg x - s.reg y))

/-- SHR x (R108). -/
def execShr (x : Reg) (s : State) : Result := .next (s.setFlagThenReg (lowBitFlag (s.reg x)) x (s.reg x >>> 1))

/-- SUBN x,y (R109). -/
def execSubnXy (x y : Reg) (s : State) : Result :=
  .next (s.setFlagThenReg (greaterFlag (s.reg y) (s.reg x)) x (s.reg y - s.reg x))

/-- SHL x (R110). -/
def execShl (x : Reg) (s : State) : Result := .next (s.setFlagThenReg (highBitFlag (s.reg x)) x (s.reg x <<< 1))

/-- RND x,kk with the random byte of the step (R111), which is used up. -/
def rndWith (rnd : Byte) (x : Reg) (kk : Byte) (s : State) : State :=
  { s.setReg x (rnd &&& kk) with rndIndex := s.rndIndex + 1 }

/-- RND x,kk (R111): the byte is the free value, a fresh one for each RND. -/
def execRnd (x : Reg) (kk : Byte) (s : State) : Result := .next (rndWith (Config.rndByte s.rndIndex) x kk s)

end Sys2Proof.Machine
end

