-- ==== Sys2Proof/Machine/Control.lean ====
section
/-! DEFINITION. Control transfer (spec/41_control_flow.md). PC already holds the address after the instruction (R73). -/

namespace Sys2Proof.Machine

open Sys2Proof

/-- RET (R90). -/
def execRet (s : State) : Result :=
  match s.pop with
  | some (w, s') => .next (s'.setPc w)
  | none => raise (.stackUnderflow s.instrAddress) s

/-- JP nnn (R91). -/
def execJp (nnn : Addr) (s : State) : Result := .next (s.setPc (zextAddr nnn))

/-- CALL nnn (R92). -/
def execCall (nnn : Addr) (s : State) : Result :=
  match s.push s.pc with
  | some s' => .next (s'.setPc (zextAddr nnn))
  | none => raise (.stackOverflow s.instrAddress s.pc) s

/-- SE x,kk (R93). -/
def execSeKk (x : Reg) (kk : Byte) (s : State) : Result := .next (s.skipIf (s.reg x == kk))

/-- SNE x,kk (R94). -/
def execSneKk (x : Reg) (kk : Byte) (s : State) : Result := .next (s.skipIf (s.reg x != kk))

/-- SE x,y (R95). -/
def execSeXy (x y : Reg) (s : State) : Result := .next (s.skipIf (s.reg x == s.reg y))

/-- SNE x,y (R96). -/
def execSneXy (x y : Reg) (s : State) : Result := .next (s.skipIf (s.reg x != s.reg y))

/-- JP V0,nnn (R97). -/
def execJpV0 (nnn : Addr) (s : State) : Result := .next (s.setPc (zextByte (s.reg 0) + zextAddr nnn))

end Sys2Proof.Machine
end

