-- ==== Sys2Proof/Machine/Display.lean ====
section
/-! DEFINITION. The display instructions (spec/44_display.md). -/

namespace Sys2Proof.Machine

open Sys2Proof

/-- CLS (R130). -/
def execCls (s : State) : Result := .next (s.redrawWith Framebuffer.clear)

/-- The blit of R132 with its row range already checked, in either wrap mode: VF is the collision flag, and the origin is
taken from Vx and Vy as they were (R74). -/
def blit (m : Config.WrapMode) (x y : Reg) (n : Nibble) (s : State) : Result :=
  match setPixels m s.fb (spritePixels (s.reg x).toNat (s.reg y).toNat (spriteRows s n)) with
  | some (fb, erased) => .next ((s.setReg VF (flagByte erased)).redrawWith fb)
  | none => .refused .pixelOutsideFramebuffer

/-- DRW in either wrap mode (R132, R135): with no rows no memory is read and nothing is checked. -/
def drawSprite (m : Config.WrapMode) (x y : Reg) (n : Nibble) (s : State) : Result :=
  if n = 0 then blit m x y n s else guardRange (dataAddr s (n.toNat - 1)) s (blit m x y n s)

/-- DRW x,y,n (R132), in the wrap mode of the machine (R4). -/
def execDrw (x y : Reg) (n : Nibble) (s : State) : Result := drawSprite s.cfg.wrapMode x y n s

end Sys2Proof.Machine
end

