-- ==== Sys2Proof/Machine/Index.lean ====
section
/-! DEFINITION. The index register, loads and stores (spec/43_index_memory.md). None of the memory instructions changes I
(R126). -/

namespace Sys2Proof.Machine

open Sys2Proof

/-- LD I,nnn (R120). -/
def execLdI (nnn : Addr) (s : State) : Result := .next (s.setI (zextAddr nnn))

/-- ADD I,x (R121): mod 65536, no flag. -/
def execAddIX (x : Reg) (s : State) : Result := .next (s.setI (s.i + zextByte (s.reg x)))

/-- LD F,x (R122): all of Vx, not its low nibble. -/
def execLdFX (x : Reg) (s : State) : Result := .next (s.setI (5 * zextByte (s.reg x)))

/-- LD B,x (R123). -/
def execLdBX (x : Reg) (s : State) : Result :=
  guardRange (dataAddr s 2) s (.next (s.storeBytes (dataAddr s 0) (decimalDigits (s.reg x))))

/-- LD [I],x (R124). -/
def execStoreX (x : Reg) (s : State) : Result :=
  guardRange (dataAddr s x.toNat) s (.next (s.storeBytes (dataAddr s 0) (s.regsThrough x)))

/-- LD x,[I] (R125). -/
def execLoadX (x : Reg) (s : State) : Result :=
  guardRange (dataAddr s x.toNat) s (.next (s.loadRegsThrough x))

end Sys2Proof.Machine
end

