-- ==== Sys2Proof/Machine/Keypad.lean ====
section
/-! DEFINITION. The keypad and timer instructions (spec/45_keypad_timers.md). -/

namespace Sys2Proof.Machine

open Sys2Proof

/-- SKP x (R140). -/
def execSkp (x : Reg) (s : State) : Result := .next (s.skipIf (s.keyDown (s.reg x)))

/-- SKNP x (R141). -/
def execSknp (x : Reg) (s : State) : Result := .next (s.skipIf (!s.keyDown (s.reg x)))

/-- LD x,DT (R142). -/
def execLdXDt (x : Reg) (s : State) : Result := .next (s.setReg x s.dt)

/-- LD x,K (R143): the wait begins; the register is written by the step that ends it (R81). -/
def execLdXK (x : Reg) (s : State) : Result := .next { s with waitX := x, mode := .waitingForKey }

/-- LD DT,x (R144). -/
def execLdDtX (x : Reg) (s : State) : Result := .next (s.setDt (s.reg x))

/-- LD ST,x (R145). -/
def execLdStX (x : Reg) (s : State) : Result := .next (s.setSt (s.reg x))

end Sys2Proof.Machine
end

