-- ==== Sys2Proof/Machine/Engine.lean ====
section
/-! DEFINITION. The phases of a step (spec/40_engine_step.md R71 to R82). -/

namespace Sys2Proof.Machine

open Sys2Proof

/-- P1, the fetch: the two bytes at PC, big-endian, or `AddressRange(PC)` when they are not both inside memory (R37, R72). -/
def fetch (s : State) : Except Fault Word :=
  if s.pc.toNat + 1 < Config.memSize then
    .ok (wordOfBytes (s.byte s.pc.toNat) (s.byte (s.pc.toNat + 1)))
  else .error (.addressRange .fetch s.pc.toNat)

/-- P2, the advance: PC + 2 mod 65536 (R73); the step's output record is begun with its trace record (R80). -/
def advance (body : TraceBody) (s : State) : State :=
  { s with pc := s.pc + 2, out := { trace := some ⟨s.pc, body⟩, tone := s.tone } }

/-- P4, the frame: emitted exactly when a redraw was requested, with the cells as they now stand (R77, R134). -/
def framePhase (s : State) : State :=
  if s.redraw then { s with redraw := false, out := { s.out with frame := some s.fb } } else s

/-- A timer one tick on: down to 0 and no further (R78). -/
def countDown (b : Byte) : Byte := if 0 < b.toNat then b - 1 else b

/-- P5, the tick (R78), and the level `tone` after it (R79). -/
def tickPhase (s : State) : State :=
  let t := (s.setDt (countDown s.dt)).setSt (countDown s.st)
  { t with out := { t.out with tone := t.tone } }

/-- P4 and P5, which every Running step has (R76). -/
def finish : Result → Result
  | .next s => .next (tickPhase (framePhase s))
  | .fault f => .fault f
  | .refused r => .refused r

/-- A step in Running (R71). -/
def runningStep (s : State) : Result :=
  match fetch s with
  | .error f => finish (raise f (advance .noWord s))
  | .ok op =>
    match lookup s.cfg.opKeys op with
    | none => finish (raise (.decodeFault s.pc op) (advance (.invalidOpcode op) s))
    | some i => finish (exec i (advance (.instruction op i) s))

/-- A step in WaitingForKey (R81): the key held, if any, goes to the register the wait began with and the engine runs
again; nothing is fetched, no timer ticks and nothing is emitted but the tone level. -/
def waitingStep (s : State) : State :=
  match s.held with
  | some k => { s.setReg s.waitX (zextNibble k) with mode := .running, out := { tone := s.tone } }
  | none => { s with out := { tone := s.tone } }

/-- A state whose next step runs the word `op`: Running, with the word stored where it fetches; a PC no fetch can use is
set to the load base. -/
def placeWord (s : State) (op : Word) : State :=
  let pc := if s.pc.toNat + 1 < Config.memSize then s.pc else BitVec.ofNat 16 Config.loadBase
  { s.storeBytes pc.toNat (bytesOfWord op) with pc := pc, mode := .running }

end Sys2Proof.Machine
end

