-- ==== Sys2Proof/Machine/Step.lean ====
section
/-! DEFINITION. `Step`, the one operation of the engine (spec/40_engine_step.md R70). -/

namespace Sys2Proof.Machine

open Sys2Proof

/-- One instruction, or one poll of the key state (R70). -/
def step (s : State) : Host.Outcome State Fault Refusal :=
  match s.mode with
  | .running => runningStep s
  | .waitingForKey => .next (waitingStep s)

/-- `s` with an instruction word, given by its bits as the opcode table numbers them, stored where the next step fetches. -/
def State.withFetchWord (s : State) (nbits w : Nat) : State := placeWord s (tableWord nbits w)

end Sys2Proof.Machine
end

