-- ==== Sys2Proof/Machine/Render.lean ====
section
/-! DEFINITION. The text of an instruction (spec/30_encoding.md R58, R59), which plays no part in execution. -/

namespace Sys2Proof.Machine

open Sys2Proof

/-- A token of a mnemonic template: a literal one, or a field's value (R59). -/
inductive Token where
  | lit (s : String)
  | field (value : Nat)
deriving DecidableEq, Repr

/-- The template of each instruction with its fields in their places (R58, decision D17). -/
def template : Instr → List Token
  | .cls => [.lit "CLS"]
  | .ret => [.lit "RET"]
  | .jp nnn => [.lit "JP", .field nnn.toNat]
  | .call nnn => [.lit "CALL", .field nnn.toNat]
  | .seKk x kk => [.lit "SE", .field x.toNat, .field kk.toNat]
  | .sneKk x kk => [.lit "SNE", .field x.toNat, .field kk.toNat]
  | .seXy x y => [.lit "SE", .field x.toNat, .field y.toNat]
  | .ldKk x kk => [.lit "LD", .field x.toNat, .field kk.toNat]
  | .addKk x kk => [.lit "ADD", .field x.toNat, .field kk.toNat]
  | .ldXy x y => [.lit "LD", .field x.toNat, .field y.toNat]
  | .orXy x y => [.lit "OR", .field x.toNat, .field y.toNat]
  | .andXy x y => [.lit "AND", .field x.toNat, .field y.toNat]
  | .xorXy x y => [.lit "XOR", .field x.toNat, .field y.toNat]
  | .addXy x y => [.lit "ADD", .field x.toNat, .field y.toNat]
  | .subXy x y => [.lit "SUB", .field x.toNat, .field y.toNat]
  | .shr x => [.lit "SHR", .field x.toNat]
  | .subnXy x y => [.lit "SUBN", .field x.toNat, .field y.toNat]
  | .shl x => [.lit "SHL", .field x.toNat]
  | .sneXy x y => [.lit "SNE", .field x.toNat, .field y.toNat]
  | .ldI nnn => [.lit "LD", .lit "I", .field nnn.toNat]
  | .jpV0 nnn => [.lit "JP", .lit "V0", .field nnn.toNat]
  | .rnd x kk => [.lit "RND", .field x.toNat, .field kk.toNat]
  | .drw x y n => [.lit "DRW", .field x.toNat, .field y.toNat, .field n.toNat]
  | .skp x => [.lit "SKP", .field x.toNat]
  | .sknp x => [.lit "SKNP", .field x.toNat]
  | .ldXDt x => [.lit "LD", .field x.toNat, .lit "DT"]
  | .ldXK x => [.lit "LD", .field x.toNat, .lit "K"]
  | .ldDtX x => [.lit "LD", .lit "DT", .field x.toNat]
  | .ldStX x => [.lit "LD", .lit "ST", .field x.toNat]
  | .addIX x => [.lit "ADD", .lit "I", .field x.toNat]
  | .ldFX x => [.lit "LD", .lit "F", .field x.toNat]
  | .ldBX x => [.lit "LD", .lit "B", .field x.toNat]
  | .storeX x => [.lit "LD", .lit "[I]", .field x.toNat]
  | .loadX x => [.lit "LD", .field x.toNat, .lit "[I]"]

/-- A lowercase hexadecimal digit. -/
def hexDigit (d : Nat) : String :=
  ["0", "1", "2", "3", "4", "5", "6", "7", "8", "9", "a", "b", "c", "d", "e", "f"].getD d ""

/-- A field, at most 12 bits, with the fewest lowercase hexadecimal digits and no prefix (R59, decision D17). -/
def hexField (v : Nat) : String :=
  if v < 16 then hexDigit v
  else if v < 256 then hexDigit (v / 16) ++ hexDigit (v % 16)
  else hexDigit (v / 256) ++ hexDigit (v / 16 % 16) ++ hexDigit (v % 16)

/-- A token as text. -/
def Token.text : Token → String
  | .lit s => s
  | .field v => hexField v

/-- Tokens joined by single spaces. -/
def joinTokens : List Token → String
  | [] => ""
  | [t] => t.text
  | t :: u :: ts => t.text ++ " " ++ joinTokens (u :: ts)

/-- The rendering of an instruction (R59). -/
def render (i : Instr) : String := joinTokens (template i)

end Sys2Proof.Machine
end

