-- ==== Sys2Proof/Machine/HostOps.lean ====
section
/-! DEFINITION. The host's five operations (spec/00_scope.md R2): `Reset`, `Load`, `KeyEvent`, `Inspect` and `Step`. Each is
atomic and they take effect in the order they are issued (R2, R47). Indexes and addresses are typed, so the inputs R166
refuses cannot be written. -/

namespace Sys2Proof.Machine

open Sys2Proof

/-- A key going down or up (R146). -/
inductive KeyAction where
  | pressed
  | released
deriving DecidableEq, Repr

/-- `Reset` (R170): every piece of state at its reset value but the key state, which stays (R171, decision D15). The random
source is no state of the machine and goes on (R23). -/
def State.hostReset (s : State) : State :=
  { State.resetWith s.cfg with keys := s.keys, held := s.held, rndIndex := s.rndIndex }

/-- `Load(bytes)` (R43): the bytes from address 512 on and the length; a program that does not fit is a `LoadError` and
changes nothing (R155). -/
def State.load (s : State) (bytes : List Byte) : Except Fault State :=
  if Config.loadBase + bytes.length ≤ Config.memSize then
    .ok { s.storeBytes Config.loadBase bytes with loadLen := bytes.length }
  else .error (.loadError bytes.length)

/-- `KeyEvent(k, e)` (R146). -/
def State.keyEvent (s : State) (k : Nibble) : KeyAction → State
  | .pressed => { s with keys := s.keys.set k.toNat true k.isLt, held := some k }
  | .released => { s with keys := s.keys.set k.toNat false k.isLt, held := if s.held = some k then none else s.held }

/-- `Inspect(a)` (R45): the byte stored there; nothing changes. -/
def State.inspect (s : State) (a : Addr) : Byte := s.byte a.toNat

/-- One operation of the host (R2). -/
inductive HostOp where
  | reset
  | load (bytes : List Byte)
  | keyEvent (k : Nibble) (e : KeyAction)
  | inspect (a : Addr)
  | step
deriving DecidableEq, Repr

/-- What an operation returns to the host. -/
inductive Reply where
  /-- nothing: `Reset`, `KeyEvent`, and a `Load` that fitted. -/
  | done
  /-- `LoadError` (R155). -/
  | error (f : Fault)
  /-- the byte inspected (R45). -/
  | byte (b : Byte)
  /-- the output record of a step (R82). -/
  | output (o : StepOutput)
deriving DecidableEq, Repr

/-- The effect of one operation and its reply. -/
def State.perform (s : State) : HostOp → Host.Outcome (State × Reply) Fault Refusal
  | .reset => .next (s.hostReset, .done)
  | .load bytes =>
    match s.load bytes with
    | .ok t => .next (t, .done)
    | .error f => .next (s, .error f)
  | .keyEvent k e => .next (s.keyEvent k e, .done)
  | .inspect a => .next (s, .byte (s.inspect a))
  | .step =>
    match step s with
    | .next t => .next (t, .output t.out)
    | .fault f => .fault f
    | .refused r => .refused r

/-- Operations one after another, in the order the host issues them (R2). -/
def State.performAll (s : State) : List HostOp → Host.Outcome (State × List Reply) Fault Refusal
  | [] => .next (s, [])
  | op :: ops =>
    match s.perform op with
    | .next (t, r) =>
      match t.performAll ops with
      | .next (u, rs) => .next (u, r :: rs)
      | .fault f => .fault f
      | .refused f => .refused f
    | .fault f => .fault f
    | .refused f => .refused f

end Sys2Proof.Machine
end

