-- ==== Sys2Proof/Safety.lean ====
section
/-! DEFINITION. The terms claims are stated in: the invariant of the machine between operations, a step without a fault, and
what an instruction leaves unchanged. -/

namespace Sys2Proof.Machine

open Sys2Proof

/-- What holds between operations (spec/10_state.md R20, R22, R26; spec/45_keypad_timers.md R146; spec/40_engine_step.md
R79). The widths of R26 are in the types. -/
structure State.Inv (s : State) : Prop where
  /-- memory is in its canonical form -/
  mem : Memory.wf s.cfg.font s.mem
  /-- "0 between steps, always" (R20) -/
  redraw : s.redraw = false
  /-- "`held = k` implies `keys[k]` is true" (R146) -/
  held : ∀ k, s.held = some k → s.keyDown (zextNibble k) = true
  /-- "0 to 3584" (R22) -/
  loadLen : s.loadLen ≤ Config.maxLoad
  /-- the tone last put out is the level ST > 0 (R79) -/
  tone : s.out.tone = s.tone

/-- The latest step raised no fault (R82). -/
def State.clean (s : State) : Prop := s.out.fault = none

/-- The instruction a Running step executes, if its fetch and its lookup find one (R71). -/
def fetched (s : State) : Option Instr :=
  match fetch s with
  | .ok op => lookup s.cfg.opKeys op
  | .error _ => none

/-- A set bit of the sprite DRW x,y,n would draw falls, with the full wrap, on the cell with this linear index (R131, R132, R133
(a)). -/
def Lit (s : State) (x y : Reg) (n : Nibble) (k : Nat) : Prop :=
  ∃ row < n.toNat, ∃ col < 8, (s.byte (dataAddr s row)).getLsbD (7 - col) = true ∧
    ((s.reg x).toNat + col) % 64 + 64 * (((s.reg y).toNat + row) % 32) = k

/-- The same with the one-step wrap; an index above 2047 is no cell (R135). -/
def LitOnce (s : State) (x y : Reg) (n : Nibble) (k : Nat) : Prop :=
  ∃ row < n.toNat, ∃ col < 8, (s.byte (dataAddr s row)).getLsbD (7 - col) = true ∧
    wrapOnce ((s.reg x).toNat + col) 64 + 64 * wrapOnce ((s.reg y).toNat + row) 32 = k

/-- The key numbered by a byte exists and is down (R147). -/
def KeyIsDown (s : State) (b : Byte) : Prop := ∃ k : Fin 16, b.toNat = k.val ∧ s.keys[k] = true

/-- The parameters of the machine, and the pieces of its state, down to one register, one byte of memory, one stack slot, one key flag and one cell. -/
inductive Part where
  | cfg
  | reg (x : Reg)
  | i
  | pc
  | sp
  | slot (k : Fin 16)
  | dt
  | st
  | mem (a : Nat)
  | cell (k : Nat)
  | mode
  | waitX
  | redraw
  | key (k : Fin 16)
  | held
  | loadLen
  | rndIndex
  | outFault
  | outFrame
  | outTrace
  | outTone
deriving DecidableEq, Repr

/-- A piece of the state has the same value in both states; a byte of memory by reading it. -/
def Part.same (s t : State) : Part → Prop
  | .cfg => t.cfg = s.cfg
  | .reg x => t.reg x = s.reg x
  | .i => t.i = s.i
  | .pc => t.pc = s.pc
  | .sp => t.sp = s.sp
  | .slot k => t.stack[k] = s.stack[k]
  | .dt => t.dt = s.dt
  | .st => t.st = s.st
  | .mem a => t.byte a = s.byte a
  | .cell k => t.fb.cell k = s.fb.cell k
  | .mode => t.mode = s.mode
  | .waitX => t.waitX = s.waitX
  | .redraw => t.redraw = s.redraw
  | .key k => t.keys[k] = s.keys[k]
  | .held => t.held = s.held
  | .loadLen => t.loadLen = s.loadLen
  | .rndIndex => t.rndIndex = s.rndIndex
  | .outFault => t.out.fault = s.out.fault
  | .outFrame => t.out.frame = s.out.frame
  | .outTrace => t.out.trace = s.out.trace
  | .outTone => t.out.tone = s.out.tone

/-- The frame: every piece of the state that `may` does not allow to change has the same value. -/
def Frame (may : Part → Prop) (s t : State) : Prop := ∀ p, ¬ may p → p.same s t

/-- Only the listed pieces may change. -/
def only (ps : List Part) (p : Part) : Prop := p ∈ ps

end Sys2Proof.Machine
end

