-- ==== Sys2Proof/Certificates/Slice0/Obligations.lean ====
section
/-! DEFINITION. The statements for the provers. Each docstring names the rules of spec/ it rests on. An instruction's statement
says how its word decodes (its operands and encoding), that it answers a next state, what that state holds, and its frame.
PC in the state `exec` takes is already the address after the instruction (R73). The encodings are the spec's default of
`OPKEYS`, OpKeys.conventional (log entry 2); where a statement rests on a decision D<n> of spec/92_eei_decisions.md its
docstring names it. -/

open Sys2Proof Sys2Proof.Config Sys2Proof.Machine
open Sys2Proof.Config.OpKeys (conventional)

/-! ### Encoding -/

/-- Words written out from the patterns of R54, at least one a family, and words R55 says are undecodable. The keys are
the spec's default (log entry 2); that 0x01E0, 0x5121 and 0x8AB8 are undecodable rests on the strict tiers, decision D5
(log entry 3). -/
def Obligations.SampleWordsDecode : Prop :=
  decode conventional [0x00, 0xE0] = .ok (.cls, []) ∧ decode conventional [0x00, 0xEE] = .ok (.ret, []) ∧
  decode conventional [0x2A, 0xBC] = .ok (.call 0xABC, []) ∧ decode conventional [0x3A, 0x9E] = .ok (.seKk 10 0x9E, []) ∧
  decode conventional [0x8A, 0xB4] = .ok (.addXy 10 11, []) ∧ decode conventional [0x8A, 0xBE] = .ok (.shl 10, []) ∧
  decode conventional [0xD0, 0x15] = .ok (.drw 0 1 5, []) ∧ decode conventional [0xF2, 0x0A] = .ok (.ldXK 2, []) ∧
  decode conventional [0xF2, 0x33] = .ok (.ldBX 2, []) ∧ decode conventional [0xE2, 0x9E] = .ok (.skp 2, []) ∧
  decode conventional [0x00, 0x00] = .error (.undecodable 0x0000) ∧
  decode conventional [0x01, 0xE0] = .error (.undecodable 0x01E0) ∧
  decode conventional [0x51, 0x21] = .error (.undecodable 0x5121) ∧
  decode conventional [0x8A, 0xB8] = .error (.undecodable 0x8AB8)

/-- Decode and encode agree, for every instruction and every value of its operands (every instruction is well formed by
the types of its operands), whatever bytes follow, and for every choice of `OPKEYS` in which each key lies under its
tier's mask and no word matches two keys; the spec's default (log entry 2) is one. Each instruction is matched at its own
tier alone: decision D5 (log entry 3). -/
def Obligations.DecodeOfEncodeIsTheInstruction : Prop :=
  (∀ k : OpKeys, k.wellFormed = true → ∀ (i : Instr) (rest : List Byte), decode k (encode k i ++ rest) = .ok (i, rest)) ∧
  conventional.wellFormed = true

/-- The other direction, for every such choice of `OPKEYS`: a word that decodes is the encoding of what it decodes to, but
for the y field of SHR and SHL, which is ignored and which the encoder writes as 0 (R56). With one registry for all tiers
a word such as 8xy8 would decode too; that it does not is decision D5 (log entry 3). The spec's default keys are log entry
2. -/
def Obligations.DecodedWordIsTheEncoding : Prop :=
  ∀ k : OpKeys, k.wellFormed = true → ∀ (op : Word) (i : Instr), lookup k op = some i →
    (((∃ x, i = .shr x) ∨ ∃ x, i = .shl x) → encodeWord k i = op &&& 0xFF0F) ∧
    ((∀ x, i ≠ .shr x) → (∀ x, i ≠ .shl x) → encodeWord k i = op)

/-- The undecodable words are exactly those of R55's table (its counts are not stated). The strict tiers are decision D5
(log entry 3). -/
def Obligations.UndecodableWordsAreThoseListed : Prop :=
  ∀ op : Word, lookup conventional op = none ↔
    (op.extractLsb' 12 4 = 0x0 ∧ op ≠ 0x00E0 ∧ op ≠ 0x00EE) ∨
    (op.extractLsb' 12 4 = 0x5 ∧ op.extractLsb' 0 4 ≠ 0) ∨
    (op.extractLsb' 12 4 = 0x8 ∧ op.extractLsb' 0 4 ∈ [0x8#4, 0x9#4, 0xA#4, 0xB#4, 0xC#4, 0xD#4, 0xF#4]) ∨
    (op.extractLsb' 12 4 = 0x9 ∧ op.extractLsb' 0 4 ≠ 0) ∨
    (op.extractLsb' 12 4 = 0xE ∧ op.extractLsb' 0 8 ∉ [0x9E#8, 0xA1#8]) ∨
    (op.extractLsb' 12 4 = 0xF ∧
      op.extractLsb' 0 8 ∉ [0x07#8, 0x0A#8, 0x15#8, 0x18#8, 0x1E#8, 0x29#8, 0x33#8, 0x55#8, 0x65#8])

/-- "With the keys of rule R54 no word matches at two tiers": where one tier finds an instruction, no other does (R53).
The strict tiers are decision D5 (log entry 3). This for every choice of `OPKEYS` that is wellFormed, which the spec's
default is (DecodeOfEncodeIsTheInstruction). -/
def Obligations.NoWordMatchesAtTwoTiers : Prop :=
  ∀ k : OpKeys, k.wellFormed = true → ∀ op : Word,
    (lookupTier mask1 (tier1 k) op ≠ none → lookupTier mask2 (tier2 k) op = none ∧ lookupTier mask3 (tier3 k) op = none ∧
      lookupTier mask4 (tier4 k) op = none) ∧
    (lookupTier mask2 (tier2 k) op ≠ none → lookupTier mask3 (tier3 k) op = none ∧ lookupTier mask4 (tier4 k) op = none) ∧
    (lookupTier mask3 (tier3 k) op ≠ none → lookupTier mask4 (tier4 k) op = none)

/-! ### Reset, and the invariant -/

/-- After construction with any parameters every piece of state has the value of R25's table, and `Reset` gives the same
but for the key state, which it leaves (and the draw counter of the free value, the model's own, log entry 5). PC is
`RESET_PC`, whose default 512 is decision D2, the key state is D15, and the empty output record and the place of the
parameters are the model's own (log entries 1, 6, 15, 24). -/
def Obligations.ResetLeavesTheTableOfValues : Prop :=
  (∀ s : State, (∃ c : Params, s = State.resetWith c) ∨ (∃ u : State, s = u.hostReset) →
    (∀ (g : Nat) (hg : g < 16) (r : Nat) (hr : r < 5), s.byte (5 * g + r) = (s.cfg.font[g])[r]) ∧
    (∀ a, 80 ≤ a → a < 4096 → s.byte a = 0) ∧
    (∀ r, s.reg r = 0) ∧ s.i = 0 ∧ s.pc = s.cfg.resetPc ∧ s.sp = 0 ∧ (∀ k : Fin 16, s.stack[k] = 0) ∧ s.dt = 0 ∧ s.st = 0 ∧
    (∀ k < 2048, s.fb.cell k = false) ∧ s.mode = .running ∧ s.waitX = 0 ∧ s.redraw = false ∧ s.loadLen = 0 ∧
    s.tone = false ∧ s.out = ⟨none, none, none, false⟩) ∧
  (∀ c : Params, (State.resetWith c).cfg = c ∧ (∀ k : Fin 16, (State.resetWith c).keys[k] = false) ∧
    (State.resetWith c).held = none) ∧
  (∀ u : State, u.hostReset.cfg = u.cfg ∧ u.hostReset.keys = u.keys ∧ u.hostReset.held = u.held) ∧
  State.reset.pc = 512 ∧ State.reset.cfg.wrapMode = .full

/-- The 80 font bytes of R33 at 0 to 79 after reset. The bytes are the spec's default of `FONT`, from general knowledge
(log entry 2). -/
def Obligations.FontAfterReset : Prop :=
  (List.range 16).map (fun d => State.reset.bytes (5 * d) 5) =
    [[0xF0, 0x90, 0x90, 0x90, 0xF0], [0x20, 0x60, 0x20, 0x20, 0x70], [0xF0, 0x10, 0xF0, 0x80, 0xF0],
     [0xF0, 0x10, 0xF0, 0x10, 0xF0], [0x90, 0x90, 0xF0, 0x10, 0x10], [0xF0, 0x80, 0xF0, 0x10, 0xF0],
     [0xF0, 0x80, 0xF0, 0x90, 0xF0], [0xF0, 0x10, 0x20, 0x40, 0x40], [0xF0, 0x90, 0xF0, 0x90, 0xF0],
     [0xF0, 0x90, 0xF0, 0x10, 0xF0], [0xF0, 0x90, 0xF0, 0x90, 0x90], [0xE0, 0x90, 0xE0, 0x90, 0xE0],
     [0xF0, 0x80, 0x80, 0x80, 0xF0], [0xE0, 0x90, 0x90, 0x90, 0xE0], [0xF0, 0x80, 0xF0, 0x80, 0xF0],
     [0xF0, 0x80, 0xF0, 0x80, 0x80]]

/-- The invariant holds after construction, whatever the parameters. That memory lists nothing then, and its canonical
form, are the model's own (log entry 18). -/
def Obligations.ResetMeetsTheInvariant : Prop := State.reset.Inv ∧ ∀ c : Params, (State.resetWith c).Inv

/-- Every step keeps the invariant, from every state that meets it. The tone clause, the level ST > 0 as it is after the
tick, is decision D16 (log entry 22); the canonical form of memory is the model's own (log entry 18). -/
def Obligations.StepKeepsTheInvariant : Prop := ∀ s t : State, s.Inv → step s = .next t → t.Inv

/-- "`Step` is total: it is defined for every state and every input, always returns" (R70): in the normative wrap mode
(log entry 4) every state steps to a next state, faults being outputs (log entry 6). In any mode no step answers a fault
that stops the machine, and the one refusal is a DRW of the one-step mode with a pixel beyond the cells, to which the spec
gives no meaning (R135). -/
def Obligations.StepNeverStops : Prop :=
  (∀ s : State, s.cfg.wrapMode = .full → ∃ t, step s = .next t) ∧ (∀ (s : State) (f : Fault), step s ≠ .fault f) ∧
  (∀ (s : State) (r : Refusal), step s = .refused r → r = .pixelOutsideFramebuffer ∧ s.cfg.wrapMode = .singleStep ∧
    ∃ x y n, fetched s = some (.drw x y n) ∧ ∃ k, 2047 < k ∧ LitOnce s x y n k)

/-- The host can issue any operations in any order, from any state: in the normative wrap mode (log entry 4) none stops
the machine; whenever they complete, in any mode, each has had its reply, the parameters are as they were and the
invariant is kept (R2, R47, R70, R146). Its tone clause is decision D16 (log entry 22), the canonical form of memory the
model's own (log entry 18), key numbers and addresses are typed (log entry 20), and faults are outputs (log entry 6). -/
def Obligations.HostRunsNeverStopAndKeepTheInvariant : Prop :=
  ∀ (ops : List HostOp) (s : State), (s.cfg.wrapMode = .full → ∃ t rs, s.performAll ops = .next (t, rs)) ∧
    (∀ t rs, s.performAll ops = .next (t, rs) → rs.length = ops.length ∧ t.cfg = s.cfg ∧ (s.Inv → t.Inv))

/-! ### The step (40_engine_step.md) -/

/-- A Running step whose two bytes at PC decode to an instruction runs exactly that instruction (R71, R34): `exec` on the
state with PC advanced and the trace record made, then the frame and tick phases. -/
def Obligations.StepRunsTheDecodedInstruction : Prop :=
  ∀ (s : State) (i : Instr), s.mode = .running → s.pc.toNat + 1 < 4096 →
    decode s.cfg.opKeys [s.byte s.pc.toNat, s.byte (s.pc.toNat + 1)] = .ok (i, []) →
    step s = finish (exec i (advance
      (.instruction (s.byte s.pc.toNat ++ s.byte (s.pc.toNat + 1)) i) s))

/-- What stands around `exec` in a Running step: the advance and the record it begins (R73, R80), and the frame and tick
phases after it (R77, R78, R79). The tone level after the tick is decision D16 (log entry 22); the widths wrap by D11 (log
entry 9). -/
def Obligations.PhasesAroundTheInstruction : Prop :=
  (∀ (b : TraceBody) (s : State),
    (advance b s).pc.toNat = (s.pc.toNat + 2) % 65536 ∧ (advance b s).out.trace = some ⟨s.pc, b⟩ ∧
    (advance b s).out.fault = none ∧ (advance b s).out.frame = none ∧
    Frame (only [.pc, .outFault, .outFrame, .outTrace, .outTone]) s (advance b s)) ∧
  (∀ u : State, ∃ t, finish (.next u) = .next t ∧
    t.dt.toNat = u.dt.toNat - 1 ∧ t.st.toNat = u.st.toNat - 1 ∧ t.redraw = false ∧
    t.out.frame = (if u.redraw then some u.fb else u.out.frame) ∧ t.out.tone = decide (0 < t.st.toNat) ∧
    Frame (only [.dt, .st, .redraw, .outFrame, .outTone]) u t)

/-- A fetched word that matches no key (R151): the fault is reported with its address and word, PC is a + 2, the timers
tick, the "invalid opcode" record is emitted, and nothing else changes. `redraw` is 0 between steps (R20, part of the
invariant). The tick on a step that faults is decision D19 (log entry 11). -/
def Obligations.UndecodableWordIsSkipped : Prop :=
  ∀ (s : State) (op : Word), s.mode = .running → s.redraw = false → fetch s = .ok op → lookup s.cfg.opKeys op = none →
    ∃ t, step s = .next t ∧ t.out.fault = some (.decodeFault s.pc op) ∧ t.out.frame = none ∧
      t.out.trace = some ⟨s.pc, .invalidOpcode op⟩ ∧ t.pc.toNat = (s.pc.toNat + 2) % 65536 ∧
      t.dt.toNat = s.dt.toNat - 1 ∧ t.st.toNat = s.st.toNat - 1 ∧
      Frame (only [.pc, .dt, .st, .outFault, .outFrame, .outTrace, .outTone]) s t

/-- The fetch (R72, R34, R35, R37): inside memory it is the two bytes at PC, big-endian, whatever PC's parity; with PC
above 4094 the step reports `AddressRange(PC)`, advances PC, ticks, and does nothing else. The fault, and going on after
it, are decisions D7 and D8 (log entries 7, 10, 11). The advance from 65534 and 65535 wraps by decision D11 (log entry 9). -/
def Obligations.FetchReadsTwoBytesOrFaults : Prop :=
  (∀ s : State, s.pc.toNat ≤ 4094 → ∃ op, fetch s = .ok op ∧
    op.toNat = 256 * (s.byte s.pc.toNat).toNat + (s.byte (s.pc.toNat + 1)).toNat) ∧
  (∀ s : State, 4094 < s.pc.toNat → s.mode = .running → s.redraw = false →
    ∃ t, step s = .next t ∧ t.out.fault = some (.addressRange .fetch s.pc.toNat) ∧ t.out.frame = none ∧
      t.out.trace = some ⟨s.pc, .noWord⟩ ∧ t.pc.toNat = (s.pc.toNat + 2) % 65536 ∧
      t.dt.toNat = s.dt.toNat - 1 ∧ t.st.toNat = s.st.toNat - 1 ∧
      Frame (only [.pc, .dt, .st, .outFault, .outFrame, .outTrace, .outTone]) s t)

/-- Both timers count down once in every Running step, after the instruction, and not at all in a WaitingForKey step (R78,
R161). On a step that faults this is decision D19, in the step that wakes D9 (log entries 11, 14). -/
def Obligations.TimersTickOncePerRunningStep : Prop :=
  ∀ s t : State, step s = .next t →
    (s.mode = .waitingForKey → t.dt = s.dt ∧ t.st = s.st) ∧
    (s.mode = .running →
      (∀ x, fetched s = some (.ldDtX x) → t.dt.toNat = (s.reg x).toNat - 1) ∧
      ((∀ x, fetched s ≠ some (.ldDtX x)) → t.dt.toNat = s.dt.toNat - 1) ∧
      (∀ x, fetched s = some (.ldStX x) → t.st.toNat = (s.reg x).toNat - 1) ∧
      ((∀ x, fetched s ≠ some (.ldStX x)) → t.st.toNat = s.st.toNat - 1))

/-- A frame is emitted by a step exactly when it executed CLS, or DRW without a fault, and carries the cells as they stand
after it (R77, R134); `redraw` is 0 again. -/
def Obligations.FrameIsEmittedByClsAndDrwOnly : Prop :=
  ∀ s t : State, s.redraw = false → step s = .next t →
    t.redraw = false ∧ (∀ f, t.out.frame = some f → f = t.fb) ∧
    (t.out.frame ≠ none ↔ s.mode = .running ∧ t.out.fault = none ∧
      (fetched s = some .cls ∨ ∃ x y n, fetched s = some (.drw x y n)))

/-- The two modes: only LD x,K enters the wait, and only a held key ends it (R18, R81, R165). That LD x,K always enters
the wait, also with a key held, is decision D9 (log entry 14). -/
def Obligations.OnlyKeyWaitChangesTheMode : Prop :=
  ∀ s t : State, step s = .next t →
    (s.mode = .running → (t.mode = .waitingForKey ↔ ∃ x, fetched s = some (.ldXK x))) ∧
    (s.mode = .waitingForKey → (t.mode = .running ↔ s.held ≠ none))

/-- A WaitingForKey step with no key held changes nothing and emits nothing but the tone level (R81). A step that wakes
writes the register latched and nothing else: decisions D9 and D14 (log entry 14). -/
def Obligations.WaitingStepPollsTheHeldKey : Prop :=
  ∀ s : State, s.mode = .waitingForKey →
    (s.held = none → step s = .next { s with out := ⟨none, none, none, decide (0 < s.st.toNat)⟩ }) ∧
    (∀ k, s.held = some k → ∃ t, step s = .next t ∧ (t.reg s.waitX).toNat = k.toNat ∧ t.mode = .running ∧
      t.out = ⟨none, none, none, decide (0 < s.st.toNat)⟩ ∧
      Frame (only [.reg s.waitX, .mode, .outFault, .outFrame, .outTrace, .outTone]) s t)

/-- The whole wait (X8, R143, R81): LD x,K, any number of polls with no key held, a key pressed, one more step: Vx is the
key's number and the engine runs on at the instruction after LD x,K; the timers have ticked once, in the step of LD x,K.
That the waking step does not tick is decision D9 (log entry 14). The advance of PC wraps by D11 (log entry 9). -/
def Obligations.KeyWaitEndsWithTheKeyPressed : Prop :=
  ∀ (s : State) (x : Reg) (k : Nibble) (polls : Nat), s.mode = .running → s.held = none → fetched s = some (.ldXK x) →
    ∃ t rs, s.performAll ([.step] ++ List.replicate polls .step ++ [.keyEvent k .pressed, .step]) = .next (t, rs) ∧
      (t.reg x).toNat = k.toNat ∧ t.mode = .running ∧ t.pc.toNat = (s.pc.toNat + 2) % 65536 ∧
      t.dt.toNat = s.dt.toNat - 1 ∧ t.st.toNat = s.st.toNat - 1 ∧ (∀ r, r ≠ x → t.reg r = s.reg r)

/-- A jump to itself with both timers at 0 is a fixed point of the step but for its outputs (R83). -/
def Obligations.SelfJumpIsAFixedPoint : Prop :=
  ∀ (s : State) (nnn : Addr), s.mode = .running → s.redraw = false → s.pc.toNat = nnn.toNat → fetched s = some (.jp nnn) →
    s.dt = 0 → s.st = 0 → ∃ t, step s = .next t ∧ t = { s with out := t.out } ∧ t.out.fault = none ∧ t.out.frame = none

/-- An instruction that is no transfer and no skip, and a step that faults, leave PC at the address after the instruction
(R13, R73). The wrap at 16 bits is decision D11, PC after a fault D8 (log entries 9, 11). -/
def Obligations.PcAdvancesByTwoUnlessTransferred : Prop :=
  ∀ s t : State, s.mode = .running → step s = .next t →
    (∀ i, fetched s = some i → i ≠ .ret ∧ (∀ a, i ≠ .jp a) ∧ (∀ a, i ≠ .call a) ∧ (∀ a, i ≠ .jpV0 a) ∧
      (∀ x b, i ≠ .seKk x b) ∧ (∀ x b, i ≠ .sneKk x b) ∧ (∀ x y, i ≠ .seXy x y) ∧ (∀ x y, i ≠ .sneXy x y) ∧
      (∀ x, i ≠ .skp x) ∧ (∀ x, i ≠ .sknp x)) ∨ t.out.fault ≠ none →
    t.pc.toNat = (s.pc.toNat + 2) % 65536

/-! ### Faults (60_exceptions.md) -/

/-- A fault keeps no write (R76, R158): an instruction that raises one changes nothing but the fault output. And the
faults an instruction can raise, with their causes, are exactly those of R150 and R157; it raises at most one. Decisions
D7 and D8 (log entries 10, 11). That DRW with n = 0 raises none is decision D23 (log entry 21). -/
def Obligations.FaultsKeepNoWriteAndHaveTheirCauses : Prop :=
  ∀ (i : Instr) (s t : State), s.out.fault = none → exec i s = .next t →
    (t.out.fault ≠ none → Frame (only [.outFault]) s t) ∧
    (t.out.fault ≠ none ↔
      (∃ a, i = .call a) ∧ s.sp.val = 16 ∨ i = .ret ∧ s.sp.val = 0 ∨
      (∃ x, i = .ldBX x) ∧ 4095 < dataAddr s 2 ∨
      (∃ x, (i = .storeX x ∨ i = .loadX x) ∧ 4095 < dataAddr s x.toNat) ∨
      (∃ x y n, i = .drw x y n ∧ n ≠ 0 ∧ 4095 < dataAddr s (n.toNat - 1))) ∧
    (∀ f, t.out.fault = some f →
      f = .stackOverflow (s.pc - 2) s.pc ∧ (∃ a, i = .call a) ∨ f = .stackUnderflow (s.pc - 2) ∧ i = .ret ∨
      ∃ top, f = .addressRange .data top ∧ ((∃ x, i = .ldBX x ∧ top = dataAddr s 2) ∨
        (∃ x, (i = .storeX x ∨ i = .loadX x) ∧ top = dataAddr s x.toNat) ∨
        (∃ x y n, i = .drw x y n ∧ top = dataAddr s (n.toNat - 1))))

/-- The numeric codes of R150. The numbers are decision D20 (log entry 23). -/
def Obligations.FaultCodesAreTheTable : Prop :=
  Fault.code none = 0 ∧ ∀ (a b : Word) (c : Access) (n : Nat),
    Fault.code (some (.decodeFault a b)) = 1 ∧ Fault.code (some (.stackOverflow a b)) = 2 ∧
    Fault.code (some (.stackUnderflow a)) = 3 ∧ Fault.code (some (.addressRange c n)) = 4 ∧
    Fault.code (some (.loadError n)) = 5

/-! ### Whole-machine frame -/

/-- Who writes what, over all instructions: each piece of state can be changed only by the instructions the spec names for
it, the parameters, the key state, `load_len` and the trace, frame and tone outputs by none (R10 to R22, R31, R36). PC is
the PC the execute phase begins with (R73). -/
def Obligations.EachPieceHasItsWriters : Prop :=
  ∀ (i : Instr) (s t : State), exec i s = .next t →
    ((∃ a, t.byte a ≠ s.byte a) → ∃ x, i = .ldBX x ∨ i = .storeX x) ∧
    ((∃ k, t.fb.cell k ≠ s.fb.cell k) → i = .cls ∨ ∃ x y n, i = .drw x y n) ∧
    (t.redraw ≠ s.redraw → i = .cls ∨ ∃ x y n, i = .drw x y n) ∧
    (t.sp ≠ s.sp → i = .ret ∨ ∃ a, i = .call a) ∧ (t.stack ≠ s.stack → ∃ a, i = .call a) ∧
    (t.i ≠ s.i → (∃ a, i = .ldI a) ∨ ∃ x, i = .addIX x ∨ i = .ldFX x) ∧
    (t.dt ≠ s.dt → ∃ x, i = .ldDtX x) ∧ (t.st ≠ s.st → ∃ x, i = .ldStX x) ∧
    (t.mode ≠ s.mode ∨ t.waitX ≠ s.waitX → ∃ x, i = .ldXK x) ∧
    (t.rndIndex ≠ s.rndIndex → ∃ x b, i = .rnd x b) ∧
    (t.pc ≠ s.pc → i = .ret ∨ (∃ a, i = .jp a ∨ i = .call a ∨ i = .jpV0 a) ∨ (∃ x b, i = .seKk x b ∨ i = .sneKk x b) ∨
      (∃ x y, i = .seXy x y ∨ i = .sneXy x y) ∨ ∃ x, i = .skp x ∨ i = .sknp x) ∧
    (∀ r, r ≠ 15 → t.reg r ≠ s.reg r → (∃ b, i = .ldKk r b ∨ i = .addKk r b ∨ i = .rnd r b) ∨
      (∃ y, i = .ldXy r y ∨ i = .orXy r y ∨ i = .andXy r y ∨ i = .xorXy r y ∨ i = .addXy r y ∨ i = .subXy r y ∨
        i = .subnXy r y) ∨ i = .shr r ∨ i = .shl r ∨ i = .ldXDt r ∨ ∃ x : Reg, r.toNat ≤ x.toNat ∧ i = .loadX x) ∧
    (t.reg 15 ≠ s.reg 15 → (∃ x y, i = .addXy x y ∨ i = .subXy x y ∨ i = .subnXy x y) ∨ (∃ x, i = .shr x ∨ i = .shl x) ∨
      (∃ x y n, i = .drw x y n) ∨ (∃ b, i = .ldKk 15 b ∨ i = .addKk 15 b ∨ i = .rnd 15 b) ∨
      (∃ y, i = .ldXy 15 y ∨ i = .orXy 15 y ∨ i = .andXy 15 y ∨ i = .xorXy 15 y) ∨ i = .ldXDt 15 ∨ i = .loadX 15) ∧
    (∀ p, p ∈ [Part.cfg, .held, .loadLen, .outTrace, .outFrame, .outTone] ∨ (∃ k, p = .key k) → p.same s t)

/-! ### Control transfer (41_control_flow.md) -/

/-- JP nnn (R91) and JP V0,nnn (R97): the target is used as it is, the sum is not reduced to 12 bits. -/
def Obligations.JumpsSetPc : Prop :=
  ∀ (nnn : Addr) (s : State),
    lookup conventional (0x1#4 ++ nnn : Word) = some (.jp nnn) ∧
    (∃ t, exec (.jp nnn) s = .next t ∧ t.pc.toNat = nnn.toNat ∧ Frame (only [.pc]) s t) ∧
    lookup conventional (0xB#4 ++ nnn : Word) = some (.jpV0 nnn) ∧
    (∃ t, exec (.jpV0 nnn) s = .next t ∧ t.pc.toNat = (s.reg 0).toNat + nnn.toNat ∧ Frame (only [.pc]) s t)

/-- CALL nnn (R92): with a free slot, PC (the address after the CALL) is pushed and the target taken; with SP = 16 the
fault is raised with both addresses and the call is not taken. The state after the fault is decision D8 (log entry 11).
The slot that receives it is numbered by decision D13 (log entry 13). -/
def Obligations.CallPushesTheReturnAddress : Prop :=
  ∀ (nnn : Addr) (s : State), lookup conventional (0x2#4 ++ nnn : Word) = some (.call nnn) ∧
    (∀ h : s.sp.val < 16, ∃ t, exec (.call nnn) s = .next t ∧ t.pc.toNat = nnn.toNat ∧ t.sp.val = s.sp.val + 1 ∧
      t.stack[s.sp.val] = s.pc ∧ Frame (only [.pc, .sp, .slot ⟨s.sp.val, h⟩]) s t) ∧
    (s.sp.val = 16 → ∃ t, exec (.call nnn) s = .next t ∧ t.out.fault = some (.stackOverflow (s.pc - 2) s.pc) ∧
      Frame (only [.outFault]) s t)

/-- RET (R90): the slot below SP is popped into PC and keeps its value; with SP = 0 the fault is raised. The state after
the fault is decision D8 (log entry 11). That slot SP - 1 is the one read, and that it keeps its value, are decision D13
(log entry 13). -/
def Obligations.ReturnPopsIntoPc : Prop :=
  lookup conventional 0x00EE = some .ret ∧
  ∀ s : State,
    (∀ (k : Nat) (_ : k < 16), s.sp.val = k + 1 → ∃ t, exec .ret s = .next t ∧ t.pc = s.stack[k] ∧ t.sp.val = k ∧
      Frame (only [.pc, .sp]) s t) ∧
    (s.sp.val = 0 → ∃ t, exec .ret s = .next t ∧ t.out.fault = some (.stackUnderflow (s.pc - 2)) ∧
      Frame (only [.outFault]) s t)

/-- "`CALL nnn` then `RET`: PC returns to the instruction immediately after the original CALL" (R92, R14), with SP as
before (X7). The slot that may differ is named by the model's numbering, decision D13 (log entry 13). -/
def Obligations.CallThenReturnComesBack : Prop :=
  ∀ (nnn : Addr) (s : State) (h : s.sp.val < 16), ∃ t u, exec (.call nnn) s = .next t ∧ exec .ret t = .next u ∧
    u.pc = s.pc ∧ Frame (only [.slot ⟨s.sp.val, h⟩]) s u

/-- The four register skips (R93, R94, R95, R96) with the skip of R98: PC goes two further, mod 65536, or stays.
The wrap is decision D11 (log entry 9). -/
def Obligations.RegisterSkips : Prop :=
  ∀ (x y : Reg) (kk : Byte) (s : State),
    lookup conventional (0x3#4 ++ x ++ kk : Word) = some (.seKk x kk) ∧
    (∃ t, exec (.seKk x kk) s = .next t ∧ Frame (only [.pc]) s t ∧
      t.pc.toNat = (if (s.reg x).toNat = kk.toNat then (s.pc.toNat + 2) % 65536 else s.pc.toNat)) ∧
    lookup conventional (0x4#4 ++ x ++ kk : Word) = some (.sneKk x kk) ∧
    (∃ t, exec (.sneKk x kk) s = .next t ∧ Frame (only [.pc]) s t ∧
      t.pc.toNat = (if (s.reg x).toNat ≠ kk.toNat then (s.pc.toNat + 2) % 65536 else s.pc.toNat)) ∧
    lookup conventional (0x5#4 ++ x ++ y ++ 0x0#4 : Word) = some (.seXy x y) ∧
    (∃ t, exec (.seXy x y) s = .next t ∧ Frame (only [.pc]) s t ∧
      t.pc.toNat = (if (s.reg x).toNat = (s.reg y).toNat then (s.pc.toNat + 2) % 65536 else s.pc.toNat)) ∧
    lookup conventional (0x9#4 ++ x ++ y ++ 0x0#4 : Word) = some (.sneXy x y) ∧
    (∃ t, exec (.sneXy x y) s = .next t ∧ Frame (only [.pc]) s t ∧
      t.pc.toNat = (if (s.reg x).toNat ≠ (s.reg y).toNat then (s.pc.toNat + 2) % 65536 else s.pc.toNat))

/-! ### Register ALU (42_alu.md) -/

/-- LD x,kk (R100), LD x,y (R102), OR (R103), AND (R104), XOR (R105): no flag. The encodings are the default `OPKEYS`,
decision D3 (log entry 2). -/
def Obligations.LoadsAndBitwise : Prop :=
  ∀ (x y : Reg) (kk : Byte) (s : State),
    lookup conventional (0x6#4 ++ x ++ kk : Word) = some (.ldKk x kk) ∧
    (∃ t, exec (.ldKk x kk) s = .next t ∧ t.reg x = kk ∧ Frame (only [.reg x]) s t) ∧
    lookup conventional (0x8#4 ++ x ++ y ++ 0x0#4 : Word) = some (.ldXy x y) ∧
    (∃ t, exec (.ldXy x y) s = .next t ∧ t.reg x = s.reg y ∧ Frame (only [.reg x]) s t) ∧
    lookup conventional (0x8#4 ++ x ++ y ++ 0x1#4 : Word) = some (.orXy x y) ∧
    (∃ t, exec (.orXy x y) s = .next t ∧ t.reg x = s.reg x ||| s.reg y ∧ Frame (only [.reg x]) s t) ∧
    lookup conventional (0x8#4 ++ x ++ y ++ 0x2#4 : Word) = some (.andXy x y) ∧
    (∃ t, exec (.andXy x y) s = .next t ∧ t.reg x = s.reg x &&& s.reg y ∧ Frame (only [.reg x]) s t) ∧
    lookup conventional (0x8#4 ++ x ++ y ++ 0x3#4 : Word) = some (.xorXy x y) ∧
    (∃ t, exec (.xorXy x y) s = .next t ∧ t.reg x = s.reg x ^^^ s.reg y ∧ Frame (only [.reg x]) s t)

/-- ADD x,kk (R101): mod 256, no flag. The encodings are the default `OPKEYS`, decision D3 (log entry 2). -/
def Obligations.AddImmediateWraps : Prop :=
  ∀ (x : Reg) (kk : Byte) (s : State), lookup conventional (0x7#4 ++ x ++ kk : Word) = some (.addKk x kk) ∧
    ∃ t, exec (.addKk x kk) s = .next t ∧ (t.reg x).toNat = ((s.reg x).toNat + kk.toNat) % 256 ∧ Frame (only [.reg x]) s t

/-- ADD x,y (R106): the sum mod 256 in Vx, the carry in VF unless x is 15, when VF holds the sum. The encodings are the
default `OPKEYS`, decision D3 (log entry 2). -/
def Obligations.AddRegistersSetsCarry : Prop :=
  ∀ (x y : Reg) (s : State), lookup conventional (0x8#4 ++ x ++ y ++ 0x4#4 : Word) = some (.addXy x y) ∧
    ∃ t, exec (.addXy x y) s = .next t ∧ (t.reg x).toNat = ((s.reg x).toNat + (s.reg y).toNat) % 256 ∧
      (x ≠ 15 → t.reg 15 = if 255 < (s.reg x).toNat + (s.reg y).toNat then 1 else 0) ∧
      Frame (only [.reg x, .reg 15]) s t

/-- SUB x,y (R107) and SUBN x,y (R109): the difference mod 256, and strict greater-than in VF unless x is 15. With x or y 15 the
operands are the old values and the result is what VF holds: the spec's decision D6 (log entry 8). -/
def Obligations.SubtractionsSetGreater : Prop :=
  ∀ (x y : Reg) (s : State),
    lookup conventional (0x8#4 ++ x ++ y ++ 0x5#4 : Word) = some (.subXy x y) ∧
    (∃ t, exec (.subXy x y) s = .next t ∧ ((t.reg x).toNat : Int) = ((s.reg x).toNat - (s.reg y).toNat : Int) % 256 ∧
      (x ≠ 15 → t.reg 15 = if (s.reg y).toNat < (s.reg x).toNat then 1 else 0) ∧ Frame (only [.reg x, .reg 15]) s t) ∧
    lookup conventional (0x8#4 ++ x ++ y ++ 0x7#4 : Word) = some (.subnXy x y) ∧
    (∃ t, exec (.subnXy x y) s = .next t ∧ ((t.reg x).toNat : Int) = ((s.reg y).toNat - (s.reg x).toNat : Int) % 256 ∧
      (x ≠ 15 → t.reg 15 = if (s.reg x).toNat < (s.reg y).toNat then 1 else 0) ∧ Frame (only [.reg x, .reg 15]) s t)

/-- SHR x (R108) and SHL x (R110), whatever the ignored y field holds: the shifted value, and the bit shifted out in VF
unless x is 15, which is the spec's decision D6 (log entry 8). -/
def Obligations.ShiftsSetTheBitShiftedOut : Prop :=
  ∀ (x y : Reg) (s : State),
    lookup conventional (0x8#4 ++ x ++ y ++ 0x6#4 : Word) = some (.shr x) ∧
    (∃ t, exec (.shr x) s = .next t ∧ (t.reg x).toNat = (s.reg x).toNat / 2 ∧
      (x ≠ 15 → (t.reg 15).toNat = (s.reg x).toNat % 2) ∧ Frame (only [.reg x, .reg 15]) s t) ∧
    lookup conventional (0x8#4 ++ x ++ y ++ 0xE#4 : Word) = some (.shl x) ∧
    (∃ t, exec (.shl x) s = .next t ∧ (t.reg x).toNat = 2 * (s.reg x).toNat % 256 ∧
      (x ≠ 15 → (t.reg 15).toNat = (s.reg x).toNat / 128) ∧ Frame (only [.reg x, .reg 15]) s t)

/-- RND x,kk (R111): Vx is some byte masked by kk, so no bit outside kk is set. The byte is the free value of log entry 5, and
the counter it is taken by, the model's own, goes on by one. -/
def Obligations.RandomIsMasked : Prop :=
  ∀ (x : Reg) (kk : Byte) (s : State), lookup conventional (0xC#4 ++ x ++ kk : Word) = some (.rnd x kk) ∧
    (∃ t, exec (.rnd x kk) s = .next t ∧ t.reg x = Config.rndByte s.rndIndex &&& kk ∧ t.reg x &&& ~~~kk = 0 ∧
      t.rndIndex = s.rndIndex + 1 ∧ Frame (only [.reg x, .rndIndex]) s t) ∧
    (∀ r : Byte, (rndWith r x kk s).reg x = r &&& kk)

/-! ### Index register and memory (43_index_memory.md) -/

/-- LD I,nnn (R120) and LD F,x (R122): the whole of Vx is used; no flag. The encodings are the default `OPKEYS`, decision
D3 (log entry 2). -/
def Obligations.IndexRegisterLoads : Prop :=
  ∀ (x : Reg) (nnn : Addr) (s : State),
    lookup conventional (0xA#4 ++ nnn : Word) = some (.ldI nnn) ∧
    (∃ t, exec (.ldI nnn) s = .next t ∧ t.i.toNat = nnn.toNat ∧ Frame (only [.i]) s t) ∧
    lookup conventional (0xF#4 ++ x ++ 0x29#8 : Word) = some (.ldFX x) ∧
    (∃ t, exec (.ldFX x) s = .next t ∧ t.i.toNat = 5 * (s.reg x).toNat ∧ Frame (only [.i]) s t)

/-- ADD I,x (R121): no flag; the sum is kept above 4095 and wraps at 16 bits, which is the spec's decision D11 (log entry 9). -/
def Obligations.AddToIndexWraps : Prop :=
  ∀ (x : Reg) (s : State), lookup conventional (0xF#4 ++ x ++ 0x1E#8 : Word) = some (.addIX x) ∧
    ∃ t, exec (.addIX x) s = .next t ∧ t.i.toNat = (s.i.toNat + (s.reg x).toNat) % 65536 ∧ Frame (only [.i]) s t

/-- LD B,x (R123): the digits at I, I + 1, I + 2, or the fault and nothing written. The fault is decision D7 (log entry
10). -/
def Obligations.DecimalDigitsAreStored : Prop :=
  ∀ (x : Reg) (s : State), lookup conventional (0xF#4 ++ x ++ 0x33#8 : Word) = some (.ldBX x) ∧
    (dataAddr s 2 ≤ 4095 → ∃ t, exec (.ldBX x) s = .next t ∧
      (t.byte (dataAddr s 0)).toNat = (s.reg x).toNat / 100 ∧
      (t.byte (dataAddr s 1)).toNat = (s.reg x).toNat / 10 % 10 ∧
      (t.byte (dataAddr s 2)).toNat = (s.reg x).toNat % 10 ∧
      Frame (fun p => ∃ k < 3, p = .mem (dataAddr s k)) s t) ∧
    (4095 < dataAddr s 2 → ∃ t, exec (.ldBX x) s = .next t ∧
      t.out.fault = some (.addressRange .data (dataAddr s 2)) ∧ Frame (only [.outFault]) s t)

/-- LD [I],x (R124): V0 to Vx at I to I + x, or the fault and nothing written. The fault is decision D7 (log entry 10). -/
def Obligations.BlockStore : Prop :=
  ∀ (x : Reg) (s : State), lookup conventional (0xF#4 ++ x ++ 0x55#8 : Word) = some (.storeX x) ∧
    (dataAddr s x.toNat ≤ 4095 → ∃ t, exec (.storeX x) s = .next t ∧
      (∀ r : Reg, r.toNat ≤ x.toNat → t.byte (dataAddr s r.toNat) = s.reg r) ∧
      Frame (fun p => ∃ k ≤ x.toNat, p = .mem (dataAddr s k)) s t) ∧
    (4095 < dataAddr s x.toNat → ∃ t, exec (.storeX x) s = .next t ∧
      t.out.fault = some (.addressRange .data (dataAddr s x.toNat)) ∧ Frame (only [.outFault]) s t)

/-- LD x,[I] (R125): I to I + x into V0 to Vx, or the fault and no register changed. The fault is decision D7 (log entry
10). -/
def Obligations.BlockLoad : Prop :=
  ∀ (x : Reg) (s : State), lookup conventional (0xF#4 ++ x ++ 0x65#8 : Word) = some (.loadX x) ∧
    (dataAddr s x.toNat ≤ 4095 → ∃ t, exec (.loadX x) s = .next t ∧
      (∀ r : Reg, r.toNat ≤ x.toNat → t.reg r = s.byte (dataAddr s r.toNat)) ∧
      Frame (fun p => ∃ r : Reg, r.toNat ≤ x.toNat ∧ p = .reg r) s t) ∧
    (4095 < dataAddr s x.toNat → ∃ t, exec (.loadX x) s = .next t ∧
      t.out.fault = some (.addressRange .data (dataAddr s x.toNat)) ∧ Frame (only [.outFault]) s t)

/-- A block stored and loaded again from the same I, whatever was done to the registers between: V0 to Vx are as they were
stored, the others as they were before the load (R124, R125, R126). -/
def Obligations.BlockStoreThenLoadRestores : Prop :=
  ∀ (x : Reg) (s : State) (v : Vector Byte 16), dataAddr s x.toNat ≤ 4095 →
    ∃ t u, exec (.storeX x) s = .next t ∧ exec (.loadX x) { t with v := v } = .next u ∧
      ∀ r : Reg, u.reg r = if r.toNat ≤ x.toNat then s.reg r else v[r.toNat]'r.isLt

/-- "A store is visible to the next fetch at once" (R42, R176): V0 and V1 stored over the bytes at PC are the very next word
fetched. -/
def Obligations.StoredBytesAreFetched : Prop :=
  ∀ (x : Reg) (s : State), 1 ≤ x.toNat → dataAddr s 0 = s.pc.toNat → dataAddr s x.toNat ≤ 4095 →
    ∃ t, exec (.storeX x) s = .next t ∧ fetch t = .ok (s.reg 0 ++ s.reg 1)

/-! ### Display (44_display.md) -/

/-- CLS (R130): every cell 0 and a redraw requested, VF not written; only the exact word 0x00E0 is CLS; and the step that
runs it emits a frame of zeros, whatever the cells were. That only this word is CLS rests on the strict tiers, decision D5
(log entry 3), and on the default `OPKEYS` (log entry 2). -/
def Obligations.ClearScreen : Prop :=
  (∀ op : Word, lookup conventional op = some .cls ↔ op = 0x00E0) ∧
  (∀ s : State, ∃ t, exec .cls s = .next t ∧ (∀ k, t.fb.cell k = false) ∧ t.redraw = true ∧
    Frame (fun p => p = .redraw ∨ ∃ k, p = .cell k) s t) ∧
  (∀ s : State, s.mode = .running → fetched s = some .cls →
    ∃ t f, step s = .next t ∧ t.out.frame = some f ∧ ∀ k, f.cell k = false)

/-- `SetPixel` (R131): the cell of the wrapped coordinates is inverted, no other changes, and the answer is whether it was
erased; twice on one pixel restores the cells and answers once each way. The full wrap is decision D12 (log entry 4). -/
def Obligations.SetPixelTogglesOneWrappedCell : Prop :=
  ∀ (fb : Framebuffer) (px py : Nat), ∃ fb' e, setPixel .full fb px py = some (fb', e) ∧
    fb'.cell (px % 64 + 64 * (py % 32)) = !fb.cell (px % 64 + 64 * (py % 32)) ∧
    (e = true ↔ fb'.cell (px % 64 + 64 * (py % 32)) = false) ∧
    (∀ k, k ≠ px % 64 + 64 * (py % 32) → fb'.cell k = fb.cell k) ∧
    (∃ fb'', setPixel .full fb' px py = some (fb'', !e) ∧ ∀ k, fb''.cell k = fb.cell k)

/-- DRW x,y,n (R132, with (a), (c) and (e) of R133): in range, exactly the cells the sprite's set bits fall on are
inverted, each once, VF is 1 exactly when one of them was on, else 0, and a redraw is requested. The origin is taken from
Vx and Vy before VF is written, so x = 15 and y = 15 are covered. Out of range, the fault and nothing else. Decisions D6,
D7, D12 and D23 (log entries 4, 8, 10, 21). This is the normative wrap mode; the fault is the same in both, and drawing in
the other mode is OneStepWrapRefusesBeyondTheCells and OneStepWrapDrawsWithinTheCells. -/
def Obligations.DrawInvertsTheSpritesCells : Prop :=
  ∀ (x y : Reg) (n : Nibble) (s : State), lookup conventional (0xD#4 ++ x ++ y ++ n : Word) = some (.drw x y n) ∧
    (s.cfg.wrapMode = .full → n = 0 ∨ dataAddr s (n.toNat - 1) ≤ 4095 → ∃ t, exec (.drw x y n) s = .next t ∧
      (∀ k, t.fb.cell k ≠ s.fb.cell k ↔ Lit s x y n k) ∧
      (t.reg 15 = 1 ∧ (∃ k, s.fb.cell k = true ∧ t.fb.cell k = false) ∨
        t.reg 15 = 0 ∧ ¬ ∃ k, s.fb.cell k = true ∧ t.fb.cell k = false) ∧ t.redraw = true ∧
      Frame (fun p => p = .reg 15 ∨ p = .redraw ∨ ∃ k, p = .cell k) s t) ∧
    (n ≠ 0 → 4095 < dataAddr s (n.toNat - 1) → ∃ t, exec (.drw x y n) s = .next t ∧
      t.out.fault = some (.addressRange .data (dataAddr s (n.toNat - 1))) ∧ Frame (only [.outFault]) s t)

/-- Two identical draws restore the framebuffer (R133 (b)); on a clear framebuffer the first leaves VF = 0 (R133 (d)) and
the second VF = 1 exactly when the sprite has a set bit (X6). The registers are set back between the two, which matters
only when x or y is 15. The full wrap is decision D12 (log entry 4), the cases x or y = 15 are D6 (log entry 8) and n = 0
is D23 (log entry 21). -/
def Obligations.DrawingTwiceRestoresTheFramebuffer : Prop :=
  ∀ (x y : Reg) (n : Nibble) (s : State), s.cfg.wrapMode = .full → n = 0 ∨ dataAddr s (n.toNat - 1) ≤ 4095 →
    ∃ t u, exec (.drw x y n) s = .next t ∧ exec (.drw x y n) { t with v := s.v } = .next u ∧
      (∀ k, u.fb.cell k = s.fb.cell k) ∧
      ((∀ k, s.fb.cell k = false) → t.reg 15 = 0 ∧ (u.reg 15 = 1 ↔ ∃ k, Lit s x y n k))

/-- The two wrap modes agree on every DRW with Vx <= 120 and Vy + n <= 64 (R135). Neither mode but full is the spec's
default (decision D12, log entry 4). -/
def Obligations.WrapModesAgreeNearTheScreen : Prop :=
  ∀ (x y : Reg) (n : Nibble) (s : State), (s.reg x).toNat ≤ 120 → (s.reg y).toNat + n.toNat ≤ 64 →
    drawSprite .singleStep x y n s = drawSprite .full x y n s

/-- In a machine with the one-step wrap (R135, not the spec's default, log entry 4) a DRW in range is refused exactly when
a set bit falls on an index above 2047, to which the spec gives "no meaning" (U13). -/
def Obligations.OneStepWrapRefusesBeyondTheCells : Prop :=
  ∀ (x y : Reg) (n : Nibble) (s : State), s.cfg.wrapMode = .singleStep → n = 0 ∨ dataAddr s (n.toNat - 1) ≤ 4095 →
    (exec (.drw x y n) s = .refused .pixelOutsideFramebuffer ↔ ∃ k, 2047 < k ∧ LitOnce s x y n k)

/-- In a machine with the one-step wrap (R135, not the spec's default, log entry 4) a DRW in range whose pixels are all cells
inverts exactly those cells, with the flag, the redraw and the frame of R132. Decisions D6, D7, D12, D23 (log entries 4, 8, 10,
21). -/
def Obligations.OneStepWrapDrawsWithinTheCells : Prop :=
  ∀ (x y : Reg) (n : Nibble) (s : State), s.cfg.wrapMode = .singleStep → n = 0 ∨ dataAddr s (n.toNat - 1) ≤ 4095 →
    (∀ k, LitOnce s x y n k → k ≤ 2047) → ∃ t, exec (.drw x y n) s = .next t ∧
      (∀ k, t.fb.cell k ≠ s.fb.cell k ↔ LitOnce s x y n k) ∧
      (t.reg 15 = 1 ∧ (∃ k, s.fb.cell k = true ∧ t.fb.cell k = false) ∨
        t.reg 15 = 0 ∧ ¬ ∃ k, s.fb.cell k = true ∧ t.fb.cell k = false) ∧ t.redraw = true ∧
      Frame (fun p => p = .reg 15 ∨ p = .redraw ∨ ∃ k, p = .cell k) s t

/-! ### Keypad and timers (45_keypad_timers.md) -/

/-- SKP x (R140) and SKNP x (R141): the key flags are tested, and a key numbered above 15 is not pressed (R147). The
latter is decision D10 (log entry 12). The skip wraps at 16 bits by D11 (log entry 9). -/
def Obligations.KeySkips : Prop :=
  ∀ (x : Reg) (s : State),
    lookup conventional (0xE#4 ++ x ++ 0x9E#8 : Word) = some (.skp x) ∧
    (∃ t, exec (.skp x) s = .next t ∧ Frame (only [.pc]) s t ∧
      (KeyIsDown s (s.reg x) → t.pc.toNat = (s.pc.toNat + 2) % 65536) ∧ (¬ KeyIsDown s (s.reg x) → t.pc = s.pc)) ∧
    lookup conventional (0xE#4 ++ x ++ 0xA1#8 : Word) = some (.sknp x) ∧
    (∃ t, exec (.sknp x) s = .next t ∧ Frame (only [.pc]) s t ∧
      (¬ KeyIsDown s (s.reg x) → t.pc.toNat = (s.pc.toNat + 2) % 65536) ∧ (KeyIsDown s (s.reg x) → t.pc = s.pc))

/-- LD x,DT (R142): the value read is DT before the tick of the same step, which then counts DT down. The encodings are
the default `OPKEYS`, decision D3 (log entry 2). -/
def Obligations.TimerReadBeforeTheTick : Prop :=
  ∀ (x : Reg) (s : State), lookup conventional (0xF#4 ++ x ++ 0x07#8 : Word) = some (.ldXDt x) ∧
    ∃ t u, exec (.ldXDt x) s = .next t ∧ t.reg x = s.dt ∧ Frame (only [.reg x]) s t ∧ finish (.next t) = .next u ∧
      u.reg x = s.dt ∧ u.dt.toNat = s.dt.toNat - 1

/-- LD DT,x (R144) and LD ST,x (R145), with the tick of the same step; the tone level is taken after it (decision
D16, log entry 22). -/
def Obligations.TimerWritesAreTicked : Prop :=
  ∀ (x : Reg) (s : State),
    lookup conventional (0xF#4 ++ x ++ 0x15#8 : Word) = some (.ldDtX x) ∧
    (∃ t u, exec (.ldDtX x) s = .next t ∧ t.dt = s.reg x ∧ Frame (only [.dt]) s t ∧ finish (.next t) = .next u ∧
      u.dt.toNat = (s.reg x).toNat - 1) ∧
    lookup conventional (0xF#4 ++ x ++ 0x18#8 : Word) = some (.ldStX x) ∧
    (∃ t u, exec (.ldStX x) s = .next t ∧ t.st = s.reg x ∧ Frame (only [.st]) s t ∧ finish (.next t) = .next u ∧
      u.st.toNat = (s.reg x).toNat - 1 ∧ u.out.tone = decide (1 < (s.reg x).toNat))

/-- LD x,K in its own step (R143): the register index is latched and the wait begins; Vx is not written, PC stays. Also
when a key is already held: decision D9 (log entry 14). -/
def Obligations.KeyWaitBegins : Prop :=
  ∀ (x : Reg) (s : State), lookup conventional (0xF#4 ++ x ++ 0x0A#8 : Word) = some (.ldXK x) ∧
    ∃ t, exec (.ldXK x) s = .next t ∧ t.waitX = x ∧ t.mode = .waitingForKey ∧ Frame (only [.mode, .waitX]) s t

/-- `KeyEvent` (R146): a press sets the flag and `held`; a release clears the flag, and `held` only when it is that key.
Nothing but the key state changes. Key numbers are typed, decision D25 (log entry 20). -/
def Obligations.KeyEventSetsTheKeyState : Prop :=
  ∀ (s : State) (k : Nibble) (j : Fin 16),
    (s.keyEvent k .pressed).keys[j] = (if j.val = k.toNat then true else s.keys[j]) ∧
    (s.keyEvent k .pressed).held = some k ∧
    (s.keyEvent k .released).keys[j] = (if j.val = k.toNat then false else s.keys[j]) ∧
    (s.keyEvent k .released).held = (if s.held = some k then none else s.held) ∧
    Frame (fun p => p = .held ∨ p = .key ⟨k.toNat, k.isLt⟩) s (s.keyEvent k .pressed) ∧
    Frame (fun p => p = .held ∨ p = .key ⟨k.toNat, k.isLt⟩) s (s.keyEvent k .released)

/-! ### Host operations on memory (20_memory.md) -/

/-- `Load(bytes)` of a program that fits (R43): the bytes from 512 on and `load_len`, nothing else (decision D18, log entry
23). -/
def Obligations.LoadWritesTheProgram : Prop :=
  ∀ (s : State) (bytes : List Byte), 512 + bytes.length ≤ 4096 → ∃ t, s.perform (.load bytes) = .next (t, .done) ∧
    (∀ (k : Nat) (h : k < bytes.length), t.byte (512 + k) = bytes[k]) ∧ t.loadLen = bytes.length ∧
    Frame (fun p => p = .loadLen ∨ ∃ k < bytes.length, p = .mem (512 + k)) s t

/-- `load_len` (R22): a `Load` that succeeds records the length, at most 3584, and no step reads it: with another value in it, the
step is the same but for that value. -/
def Obligations.LoadLengthIsRecordedAndNeverRead : Prop :=
  (∀ (s t : State) (bytes : List Byte), s.perform (.load bytes) = .next (t, .done) →
    t.loadLen = bytes.length ∧ t.loadLen ≤ 3584) ∧
  (∀ (s : State) (n : Nat), (∀ t, step s = .next t → t.loadLen = s.loadLen ∧
      step { s with loadLen := n } = .next { t with loadLen := n }) ∧
    (∀ r, step s = .refused r → step { s with loadLen := n } = .refused r))

/-- `Load(bytes)` of a program that does not fit (R155): a `LoadError` with its length, and no change of any kind. -/
def Obligations.LoadErrorChangesNothing : Prop :=
  ∀ (s : State) (bytes : List Byte), 4096 < 512 + bytes.length →
    s.perform (.load bytes) = .next (s, .error (.loadError bytes.length))

/-- `Inspect(a)` (R45): for 0 <= a <= 4095 the byte stored there, and no change. Addresses are typed, decision D24 (log
entry 20). -/
def Obligations.InspectReadsOneByte : Prop :=
  ∀ (s : State) (a : Addr), s.perform (.inspect a) = .next (s, .byte (s.byte a.toNat))

/-! ### Rendering (30_encoding.md) -/

/-- Instructions as text (R58, R59): the words the spec's own test vectors render. The digits (lowercase, fewest, no prefix)
are the spec's decision D17, log entry 16. -/
def Obligations.RenderedExamples : Prop :=
  [0x6A05#16, 0xD015, 0x1208, 0xF20A, 0xB300, 0x00E0, 0x603F, 0x70FF, 0xF265, 0xF155].map
      (fun op => (lookup conventional op).map render) =
    [some "LD a 5", some "DRW 0 1 5", some "JP 208", some "LD 2 K", some "JP V0 300", some "CLS", some "LD 0 3f",
      some "ADD 0 ff", some "LD 2 [I]", some "LD [I] 1"]
end

