-- ==== Sys2Proof/Laws/PerInstr.lean ====
section
/-! SUPPORT. Facts about every instruction as syntax, one lemma per constructor, and the operands' well-formedness. -/

namespace Sys2Proof.Laws

open Sys2Proof Sys2Proof.Config

/-! ### Words built of fields: the masks of the tiers and the fields (R51, R52, R53) -/

/-- The tier-2 mask keeps the leading nibble and the trailing byte. -/
theorem and_mask2 (a x : BitVec 4) (k : BitVec 8) : (a ++ x ++ k : BitVec 16) &&& mask2 = a ++ 0#4 ++ k := by
  apply BitVec.eq_of_getLsbD_eq
  simp only [mask2, BitVec.getLsbD_and, BitVec.getLsbD_append]
  intro i hi
  interval_cases i <;> simp

/-- The tier-3 mask keeps the leading and the trailing nibble. -/
theorem and_mask3 (a x y n : BitVec 4) : (a ++ x ++ y ++ n : BitVec 16) &&& mask3 = a ++ 0#4 ++ 0#4 ++ n := by
  apply BitVec.eq_of_getLsbD_eq
  simp only [mask3, BitVec.getLsbD_and, BitVec.getLsbD_append]
  intro i hi
  interval_cases i <;> simp

/-- The tier-4 mask keeps the leading nibble, whatever the three fields of format XYN are. -/
theorem and_mask4_xyn (a x y n : BitVec 4) : (a ++ x ++ y ++ n : BitVec 16) &&& mask4 = a ++ 0#12 := by
  apply BitVec.eq_of_getLsbD_eq
  simp only [mask4, BitVec.getLsbD_and, BitVec.getLsbD_append]
  intro i hi
  interval_cases i <;> simp

/-- The tier-4 mask keeps the leading nibble (format XK). -/
theorem and_mask4_xk (a x : BitVec 4) (k : BitVec 8) : (a ++ x ++ k : BitVec 16) &&& mask4 = a ++ 0#12 := by
  apply BitVec.eq_of_getLsbD_eq
  simp only [mask4, BitVec.getLsbD_and, BitVec.getLsbD_append]
  intro i hi
  interval_cases i <;> simp

/-- The tier-4 mask keeps the leading nibble (format A). -/
theorem and_mask4_a (a : BitVec 4) (k : BitVec 12) : (a ++ k : BitVec 16) &&& mask4 = a ++ 0#12 := by
  apply BitVec.eq_of_getLsbD_eq
  simp only [mask4, BitVec.getLsbD_and, BitVec.getLsbD_append]
  intro i hi
  interval_cases i <;> simp

/-- The address field of a word of format A. -/
theorem fieldsOf_a (a : BitVec 4) (k : BitVec 12) : (fieldsOf (a ++ k : BitVec 16)).nnn = k := by
  apply BitVec.eq_of_getLsbD_eq
  simp only [fieldsOf, BitVec.getLsbD_extractLsb', BitVec.getLsbD_append]
  intro i hi
  simp [hi]

/-- The fields of a word of formats XK and X. -/
theorem fieldsOf_xk (a x : BitVec 4) (k : BitVec 8) :
    (fieldsOf (a ++ x ++ k : BitVec 16)).x = x ∧ (fieldsOf (a ++ x ++ k : BitVec 16)).kk = k := by
  constructor <;> apply BitVec.eq_of_getLsbD_eq <;>
    simp only [fieldsOf, BitVec.getLsbD_extractLsb', BitVec.getLsbD_append] <;> intro i hi <;> interval_cases i <;> simp

/-- The fields of a word of formats XYN and XY. -/
theorem fieldsOf_xyn (a x y n : BitVec 4) :
    (fieldsOf (a ++ x ++ y ++ n : BitVec 16)).x = x ∧ (fieldsOf (a ++ x ++ y ++ n : BitVec 16)).y = y ∧
      (fieldsOf (a ++ x ++ y ++ n : BitVec 16)).n = n := by
  refine ⟨?_, ?_, ?_⟩ <;> apply BitVec.eq_of_getLsbD_eq <;>
    simp only [fieldsOf, BitVec.getLsbD_extractLsb', BitVec.getLsbD_append] <;> intro i hi <;> interval_cases i <;> simp

/-! ### A key with operands beside it -/

/-- A key's bits outside its mask are 0, so they add nothing to a field there. -/
theorem extract_key_or {k o m : Word} (hk : k &&& m = k) {a n : Nat} (hm : m.extractLsb' a n = 0#n) :
    (k ||| o).extractLsb' a n = o.extractLsb' a n := by
  have h0 : k.extractLsb' a n = 0#n := by
    rw [← hk, BitVec.extractLsb'_and, hm, BitVec.and_zero]
  rw [BitVec.extractLsb'_or, h0, BitVec.zero_or]

/-- Operands outside the mask leave the key. -/
theorem key_or_and {k o m : Word} (hk : k &&& m = k) (ho : o &&& m = 0) : (k ||| o) &&& m = k := by
  have h : (k ||| o) &&& m = k &&& m ||| o &&& m := by
    apply BitVec.eq_of_getLsbD_eq
    intro i _
    simp only [BitVec.getLsbD_and, BitVec.getLsbD_or, Bool.and_or_distrib_right]
  rw [h, hk, show o &&& m = 0#16 from ho, BitVec.or_zero]

/-! ### Every operand fits its field -/

/-- By the types of its operands, every instruction is well formed. -/
theorem wellFormed_all (i : Instr) : i.wellFormed = true := by
  have lt4 (x : BitVec 4) : x.toNat < 16 := x.isLt
  have lt8 (x : BitVec 8) : x.toNat < 256 := x.isLt
  have lt12 (x : BitVec 12) : x.toNat < 4096 := x.isLt
  cases i <;> simp [Instr.wellFormed, Instr.rawFields, RawFields.wellFormed, lt4, lt8, lt12]

/-- The typed fields of well-formed operands are those numbers. -/
theorem toFields_some {r : RawFields} (h : r.wellFormed = true) :
    ∃ f, r.toFields = some f ∧ f.nnn.toNat = r.nnn ∧ f.n.toNat = r.n ∧ f.x.toNat = r.x ∧ f.y.toNat = r.y ∧
      f.kk.toNat = r.kk := by
  refine ⟨_, if_pos h, ?_⟩
  simp only [RawFields.wellFormed, Bool.and_eq_true, decide_eq_true_eq] at h
  simp only [BitVec.toNat_ofNat]
  omega

/-! ### Each instruction's own row -/

/-- The rows tried under a mask (R53). -/
def rowsUnder (k : OpKeys) (mask : Word) : List Row :=
  if mask = mask1 then tier1 k else if mask = mask2 then tier2 k else if mask = mask3 then tier3 k else tier4 k

@[simp] theorem rowsUnder_mask1 (k : OpKeys) : rowsUnder k mask1 = tier1 k := rfl
@[simp] theorem rowsUnder_mask2 (k : OpKeys) : rowsUnder k mask2 = tier2 k := rfl
@[simp] theorem rowsUnder_mask3 (k : OpKeys) : rowsUnder k mask3 = tier3 k := rfl
@[simp] theorem rowsUnder_mask4 (k : OpKeys) : rowsUnder k mask4 = tier4 k := rfl

/-- There are four masks (R53). -/
theorem mask_cases (i : Instr) : i.mask = mask1 ∨ i.mask = mask2 ∨ i.mask = mask3 ∨ i.mask = mask4 := by
  cases i <;> simp [Instr.mask]

/-- A row tried under an instruction's mask is among the masked keys. -/
theorem mem_maskedKeys {k : OpKeys} {i : Instr} {r : Row} (h : r ∈ rowsUnder k i.mask) : (i.mask, r.key) ∈ maskedKeys k := by
  simp only [maskedKeys, List.mem_append, List.mem_map, Prod.mk.injEq]
  rcases mask_cases i with hm | hm | hm | hm <;> rw [hm] at h ⊢
  · exact .inl (.inl (.inl ⟨r, h, rfl, rfl⟩))
  · exact .inl (.inl (.inr ⟨r, h, rfl, rfl⟩))
  · exact .inl (.inr ⟨r, h, rfl, rfl⟩)
  · exact .inr ⟨r, h, rfl, rfl⟩

namespace OwnRow

/-- Whatever the keys, so long as each lies under its tier's mask: the instruction's key is that of a row of its tier, its word
under the mask of the tier is that key, and the row makes the instruction of the word's fields. -/
def Statement (i : Instr) : Prop :=
  ∀ k : OpKeys, (∀ p ∈ maskedKeys k, p.2 &&& p.1 = p.2) →
    ∃ r ∈ rowsUnder k i.mask, r.key = k.keyOf i ∧ encodeWord k i &&& i.mask = r.key ∧ r.build (fieldsOf (encodeWord k i)) = i

/-- From a row in the instruction's tier: its operands lie outside the mask and its builder reads them back. -/
theorem of_row {i : Instr} (build : Fields → Instr) (mem : ∀ k : OpKeys, ⟨k.keyOf i, build⟩ ∈ rowsUnder k i.mask)
    (outside : i.operandBits &&& i.mask = 0)
    (reads : ∀ key : Word, key &&& i.mask = key → build (fieldsOf (key ||| i.operandBits)) = i) : Statement i := by
  intro k hk
  have hkey : k.keyOf i &&& i.mask = k.keyOf i := hk _ (mem_maskedKeys (mem k))
  exact ⟨_, mem k, rfl, key_or_and hkey outside, reads _ hkey⟩

/-- Format A. -/
theorem of_a (c : Addr → Instr) (nnn : Addr) (hm : (c nnn).mask = mask4) (ho : (c nnn).operandBits = 0#4 ++ nnn)
    (mem : ∀ k : OpKeys, ⟨k.keyOf (c nnn), fun f => c f.nnn⟩ ∈ tier4 k) : Statement (c nnn) := by
  refine of_row (fun f => c f.nnn) (by rw [hm]; exact mem) (by rw [ho, hm, and_mask4_a]; rfl) fun key hkey => ?_
  rw [hm] at hkey
  rw [ho]
  exact congrArg c ((extract_key_or hkey (by decide)).trans (fieldsOf_a 0#4 nnn))

/-- Format XK. -/
theorem of_xk (c : Reg → Byte → Instr) (x : Reg) (kk : Byte) (hm : (c x kk).mask = mask4)
    (ho : (c x kk).operandBits = 0#4 ++ x ++ kk) (mem : ∀ k : OpKeys, ⟨k.keyOf (c x kk), fun f => c f.x f.kk⟩ ∈ tier4 k) :
    Statement (c x kk) := by
  refine of_row (fun f => c f.x f.kk) (by rw [hm]; exact mem) (by rw [ho, hm, and_mask4_xk]; rfl) fun key hkey => ?_
  rw [hm] at hkey
  rw [ho]
  exact congrArg₂ c ((extract_key_or hkey (by decide)).trans (fieldsOf_xk 0#4 x kk).1)
    ((extract_key_or hkey (by decide)).trans (fieldsOf_xk 0#4 x kk).2)

/-- Format XY with both fields used. -/
theorem of_xy (c : Reg → Reg → Instr) (x y : Reg) (hm : (c x y).mask = mask3)
    (ho : (c x y).operandBits = 0#4 ++ x ++ y ++ 0#4) (mem : ∀ k : OpKeys, ⟨k.keyOf (c x y), fun f => c f.x f.y⟩ ∈ tier3 k) :
    Statement (c x y) := by
  refine of_row (fun f => c f.x f.y) (by rw [hm]; exact mem) (by rw [ho, hm, and_mask3]; rfl) fun key hkey => ?_
  rw [hm] at hkey
  rw [ho]
  exact congrArg₂ c ((extract_key_or hkey (by decide)).trans (fieldsOf_xyn 0#4 x y 0#4).1)
    ((extract_key_or hkey (by decide)).trans (fieldsOf_xyn 0#4 x y 0#4).2.1)

/-- Format XY with the y field ignored. -/
theorem of_x_tier3 (c : Reg → Instr) (x : Reg) (hm : (c x).mask = mask3) (ho : (c x).operandBits = 0#4 ++ x ++ 0#8)
    (mem : ∀ k : OpKeys, ⟨k.keyOf (c x), fun f => c f.x⟩ ∈ tier3 k) : Statement (c x) := by
  refine of_row (fun f => c f.x) (by rw [hm]; exact mem) ?_ fun key hkey => ?_
  · rw [ho, hm, show (0#4 ++ x ++ 0#8 : BitVec 16) = 0#4 ++ x ++ 0#4 ++ 0#4 from by
      apply BitVec.eq_of_getLsbD_eq
      simp only [BitVec.getLsbD_append]
      intro i hi
      interval_cases i <;> simp, and_mask3]
    rfl
  · rw [hm] at hkey
    rw [ho]
    exact congrArg c ((extract_key_or hkey (by decide)).trans (fieldsOf_xk 0#4 x 0#8).1)

/-- Format X. -/
theorem of_x (c : Reg → Instr) (x : Reg) (hm : (c x).mask = mask2) (ho : (c x).operandBits = 0#4 ++ x ++ 0#8)
    (mem : ∀ k : OpKeys, ⟨k.keyOf (c x), fun f => c f.x⟩ ∈ tier2 k) : Statement (c x) := by
  refine of_row (fun f => c f.x) (by rw [hm]; exact mem) (by rw [ho, hm, and_mask2]; rfl) fun key hkey => ?_
  rw [hm] at hkey
  rw [ho]
  exact congrArg c ((extract_key_or hkey (by decide)).trans (fieldsOf_xk 0#4 x 0#8).1)

theorem cls : Statement .cls := of_row (fun _ => .cls) (by simp [Instr.mask, tier1, OpKeys.keyOf]) rfl fun _ _ => rfl
theorem ret : Statement .ret := of_row (fun _ => .ret) (by simp [Instr.mask, tier1, OpKeys.keyOf]) rfl fun _ _ => rfl

theorem jp (nnn : Addr) : Statement (.jp nnn) := of_a .jp nnn rfl rfl (by simp [tier4, OpKeys.keyOf])
theorem call (nnn : Addr) : Statement (.call nnn) := of_a .call nnn rfl rfl (by simp [tier4, OpKeys.keyOf])
theorem ldI (nnn : Addr) : Statement (.ldI nnn) := of_a .ldI nnn rfl rfl (by simp [tier4, OpKeys.keyOf])
theorem jpV0 (nnn : Addr) : Statement (.jpV0 nnn) := of_a .jpV0 nnn rfl rfl (by simp [tier4, OpKeys.keyOf])

theorem seKk (x : Reg) (kk : Byte) : Statement (.seKk x kk) := of_xk .seKk x kk rfl rfl (by simp [tier4, OpKeys.keyOf])
theorem sneKk (x : Reg) (kk : Byte) : Statement (.sneKk x kk) := of_xk .sneKk x kk rfl rfl (by simp [tier4, OpKeys.keyOf])
theorem ldKk (x : Reg) (kk : Byte) : Statement (.ldKk x kk) := of_xk .ldKk x kk rfl rfl (by simp [tier4, OpKeys.keyOf])
theorem addKk (x : Reg) (kk : Byte) : Statement (.addKk x kk) := of_xk .addKk x kk rfl rfl (by simp [tier4, OpKeys.keyOf])
theorem rnd (x : Reg) (kk : Byte) : Statement (.rnd x kk) := of_xk .rnd x kk rfl rfl (by simp [tier4, OpKeys.keyOf])

theorem drw (x y : Reg) (n : Nibble) : Statement (.drw x y n) := by
  refine of_row (fun f => .drw f.x f.y f.n) (by simp [Instr.mask, tier4, OpKeys.keyOf]) ?_ fun key hkey => ?_
  · simp only [Instr.operandBits, Instr.mask, and_mask4_xyn]; rfl
  · replace hkey : key &&& mask4 = key := hkey
    obtain ⟨hx, hy, hn⟩ := fieldsOf_xyn 0#4 x y n
    exact congr (congrArg₂ Instr.drw ((extract_key_or hkey (by decide)).trans hx) ((extract_key_or hkey (by decide)).trans hy))
      ((extract_key_or hkey (by decide)).trans hn)

theorem seXy (x y : Reg) : Statement (.seXy x y) := of_xy .seXy x y rfl rfl (by simp [tier3, OpKeys.keyOf])
theorem ldXy (x y : Reg) : Statement (.ldXy x y) := of_xy .ldXy x y rfl rfl (by simp [tier3, OpKeys.keyOf])
theorem orXy (x y : Reg) : Statement (.orXy x y) := of_xy .orXy x y rfl rfl (by simp [tier3, OpKeys.keyOf])
theorem andXy (x y : Reg) : Statement (.andXy x y) := of_xy .andXy x y rfl rfl (by simp [tier3, OpKeys.keyOf])
theorem xorXy (x y : Reg) : Statement (.xorXy x y) := of_xy .xorXy x y rfl rfl (by simp [tier3, OpKeys.keyOf])
theorem addXy (x y : Reg) : Statement (.addXy x y) := of_xy .addXy x y rfl rfl (by simp [tier3, OpKeys.keyOf])
theorem subXy (x y : Reg) : Statement (.subXy x y) := of_xy .subXy x y rfl rfl (by simp [tier3, OpKeys.keyOf])
theorem subnXy (x y : Reg) : Statement (.subnXy x y) := of_xy .subnXy x y rfl rfl (by simp [tier3, OpKeys.keyOf])
theorem sneXy (x y : Reg) : Statement (.sneXy x y) := of_xy .sneXy x y rfl rfl (by simp [tier3, OpKeys.keyOf])

theorem shr (x : Reg) : Statement (.shr x) := of_x_tier3 .shr x rfl rfl (by simp [tier3, OpKeys.keyOf])
theorem shl (x : Reg) : Statement (.shl x) := of_x_tier3 .shl x rfl rfl (by simp [tier3, OpKeys.keyOf])

theorem skp (x : Reg) : Statement (.skp x) := of_x .skp x rfl rfl (by simp [tier2, OpKeys.keyOf])
theorem sknp (x : Reg) : Statement (.sknp x) := of_x .sknp x rfl rfl (by simp [tier2, OpKeys.keyOf])
theorem ldXDt (x : Reg) : Statement (.ldXDt x) := of_x .ldXDt x rfl rfl (by simp [tier2, OpKeys.keyOf])
theorem ldXK (x : Reg) : Statement (.ldXK x) := of_x .ldXK x rfl rfl (by simp [tier2, OpKeys.keyOf])
theorem ldDtX (x : Reg) : Statement (.ldDtX x) := of_x .ldDtX x rfl rfl (by simp [tier2, OpKeys.keyOf])
theorem ldStX (x : Reg) : Statement (.ldStX x) := of_x .ldStX x rfl rfl (by simp [tier2, OpKeys.keyOf])
theorem addIX (x : Reg) : Statement (.addIX x) := of_x .addIX x rfl rfl (by simp [tier2, OpKeys.keyOf])
theorem ldFX (x : Reg) : Statement (.ldFX x) := of_x .ldFX x rfl rfl (by simp [tier2, OpKeys.keyOf])
theorem ldBX (x : Reg) : Statement (.ldBX x) := of_x .ldBX x rfl rfl (by simp [tier2, OpKeys.keyOf])
theorem storeX (x : Reg) : Statement (.storeX x) := of_x .storeX x rfl rfl (by simp [tier2, OpKeys.keyOf])
theorem loadX (x : Reg) : Statement (.loadX x) := of_x .loadX x rfl rfl (by simp [tier2, OpKeys.keyOf])

end OwnRow

end Sys2Proof.Laws
end

