-- ==== Sys2Proof/Laws/Decode.lean ====
section
/-! SUPPORT. What a proof about lookup needs: what one tier answers, and that every mask keeps the leading nibble, so only rows
with the word's own leading nibble can match (R53, R54). -/

namespace Sys2Proof.Laws

open Sys2Proof Sys2Proof.Config

/-- The leading nibble of a word, which selects the instruction group (R51). -/
def topNibble (op : Word) : BitVec 4 := op.extractLsb' 12 4

@[simp] theorem topNibble_a (a : BitVec 4) (k : BitVec 12) : topNibble (a ++ k : BitVec 16) = a := by
  apply BitVec.eq_of_getLsbD_eq
  simp only [topNibble, BitVec.getLsbD_extractLsb', BitVec.getLsbD_append]
  intro i hi
  interval_cases i <;> simp

@[simp] theorem topNibble_xk (a x : BitVec 4) (k : BitVec 8) : topNibble (a ++ x ++ k : BitVec 16) = a := by
  apply BitVec.eq_of_getLsbD_eq
  simp only [topNibble, BitVec.getLsbD_extractLsb', BitVec.getLsbD_append]
  intro i hi
  interval_cases i <;> simp

@[simp] theorem topNibble_xyn (a x y n : BitVec 4) : topNibble (a ++ x ++ y ++ n : BitVec 16) = a := by
  apply BitVec.eq_of_getLsbD_eq
  simp only [topNibble, BitVec.getLsbD_extractLsb', BitVec.getLsbD_append]
  intro i hi
  interval_cases i <;> simp

/-- A key of another group is never matched. -/
theorem key_ne_of_topNibble {op mask key : Word} (hm : topNibble mask = 0xF#4) (h : topNibble op ≠ topNibble key) :
    (op &&& mask == key) = false := by
  rw [beq_eq_false_iff_ne]
  rintro rfl
  apply h
  have : topNibble (op &&& mask) = topNibble op &&& topNibble mask := by
    apply BitVec.eq_of_getLsbD_eq
    intro i hi
    simp only [topNibble, BitVec.getLsbD_extractLsb', BitVec.getLsbD_and]
    simp [hi]
  rw [this, hm]
  apply BitVec.eq_of_getLsbD_eq
  intro i hi
  interval_cases i <;> simp

/-- A word is its leading nibble and its other three. -/
theorem word_eq_nibbles (op : Word) :
    op = (topNibble op ++ op.extractLsb' 8 4 ++ op.extractLsb' 4 4 ++ op.extractLsb' 0 4 : BitVec 16) := by
  apply BitVec.eq_of_getLsbD_eq
  simp only [topNibble, BitVec.getLsbD_extractLsb', BitVec.getLsbD_append]
  intro i hi
  interval_cases i <;> simp

/-- The two bytes of a word make the word again (R34). -/
theorem wordOfBytes_bytes (op : Word) : wordOfBytes (op.extractLsb' 8 8) (op.extractLsb' 0 8) = op := by
  apply BitVec.eq_of_getLsbD_eq
  simp only [wordOfBytes, BitVec.getLsbD_extractLsb', BitVec.getLsbD_append]
  intro i hi
  interval_cases i <;> simp

theorem keysApart_iff (ps : List (Word × Word)) : keysApart ps = true ↔ ps.Pairwise (fun p q => p.2 &&& q.1 ≠ q.2) := by
  induction ps with
  | nil => simp [keysApart]
  | cons p ps ih => simp [keysApart, ih]

/-- The check on keys, said as two facts about the list of masked keys. -/
theorem wellFormed_keys_iff (k : OpKeys) :
    k.wellFormed = true ↔
      (∀ p ∈ maskedKeys k, p.2 &&& p.1 = p.2) ∧ (maskedKeys k).Pairwise (fun p q => p.2 &&& q.1 ≠ q.2) := by
  simp [OpKeys.wellFormed, keysApart_iff]

/-- A tier finds nothing exactly when no row has the masked word as its key (R53). -/
theorem lookupTier_eq_none {mask op : Word} {rows : List Row} :
    lookupTier mask rows op = none ↔ ∀ r ∈ rows, op &&& mask ≠ r.key := by
  simp [lookupTier]

/-- In a tier whose keys differ, the row with the masked word as its key is the one found (R53). -/
theorem lookupTier_of_mem {mask op : Word} {rows : List Row} {r : Row} (hd : rows.Pairwise (fun a b => a.key ≠ b.key))
    (hr : r ∈ rows) (h : op &&& mask = r.key) : lookupTier mask rows op = some (r.build (fieldsOf op)) := by
  induction rows with
  | nil => cases hr
  | cons a rows ih =>
    obtain ⟨hne, hd⟩ := List.pairwise_cons.1 hd
    rcases List.mem_cons.1 hr with rfl | hr
    · simp [lookupTier, h]
    · have : (op &&& mask == a.key) = false := by
        rw [beq_eq_false_iff_ne, h]
        exact fun e => hne r hr e.symm
      rw [← ih hd hr]
      simp [lookupTier, this]

/-- Decoding two bytes or more is looking up their word (R50). -/
theorem decode_bytesOfWord (k : OpKeys) (op : Word) (rest : List Byte) :
    decode k (bytesOfWord op ++ rest) =
      match lookup k op with
      | some i => .ok (i, rest)
      | none => .error (.undecodable op) := by
  cases h : lookup k op <;> simp [bytesOfWord, decode, wordOfBytes_bytes, h]

end Sys2Proof.Laws
end

