-- ==== Sys2Proof/Laws/Display.lean ====
section
/-! SUPPORT. The laws of the pixel operations (R131, R132, R135). -/

namespace Sys2Proof.Machine

open Sys2Proof

variable {fb fb' : Framebuffer} {m : Config.WrapMode}

/-- Toggling a cell inverts it and leaves the others alone. -/
theorem cell_toggle {k : Nat} (hk : k < 2048) (j : Nat) :
    (fb.toggle k).cell j = if j = k then !fb.cell k else fb.cell j := by
  unfold Framebuffer.toggle Framebuffer.cell
  rw [dif_pos hk]
  by_cases hj : j < 2048
  · simp only [hj, hk, dite_true, Vector.getElem_set]
    by_cases hrow : k / 64 = j / 64
    · simp only [hrow, if_true, BitVec.getLsbD_xor, BitVec.getLsbD_twoPow]
      by_cases hjk : j = k
      · subst hjk; simp [Nat.mod_lt]
      · have : ¬ k % 64 = j % 64 := by omega
        simp [hjk, this]
    · have : ¬ j = k := by rintro rfl; exact hrow rfl
      simp [hrow, this]
  · have : ¬ j = k := by omega
    simp [hj, this]

/-- The full wrap always names a cell (R131). -/
theorem pixelIndex_full_lt (px py : Nat) : pixelIndex .full px py < 2048 := by
  simp only [pixelIndex, Config.fbWidth, Config.fbHeight]; omega

/-- `SetPixel` on a cell: the cell is inverted, and the answer is whether it was on (R131). -/
theorem setPixel_of_lt {px py : Nat} (h : pixelIndex m px py < 2048) :
    setPixel m fb px py = some (fb.toggle (pixelIndex m px py), fb.cell (pixelIndex m px py)) := by
  simp [setPixel, h, cell_toggle]

/-- `SetPixel` off the cells has no meaning (R135). -/
theorem setPixel_of_not_lt {px py : Nat} (h : ¬ pixelIndex m px py < 2048) : setPixel m fb px py = none := by
  simp [setPixel, h]

/-- The linear indices of a list of pixels. -/
abbrev indices (m : Config.WrapMode) (ps : List (Nat × Nat)) : List Nat := ps.map (fun p => pixelIndex m p.1 p.2)

/-- What `SetPixel` on pixels of different cells does: it inverts exactly those cells, and reports whether one of them was
on. -/
theorem setPixels_nodup {ps : List (Nat × Nat)} (hlt : ∀ k ∈ indices m ps, k < 2048) (hnd : (indices m ps).Nodup) :
    ∃ fb' e, setPixels m fb ps = some (fb', e) ∧ (∀ j, fb'.cell j = (fb.cell j ^^ decide (j ∈ indices m ps))) ∧
      (e = true ↔ ∃ k ∈ indices m ps, fb.cell k = true) := by
  induction ps generalizing fb with
  | nil => exact ⟨fb, false, rfl, by simp, by simp⟩
  | cons p ps ih =>
    simp only [indices, List.map_cons, List.nodup_cons, List.forall_mem_cons] at hlt hnd
    obtain ⟨hp, hlt⟩ := hlt
    obtain ⟨hnotin, hnd⟩ := hnd
    obtain ⟨fb', e, heq, hcell, herased⟩ := ih (fb := fb.toggle (pixelIndex m p.1 p.2)) hlt hnd
    refine ⟨fb', fb.cell (pixelIndex m p.1 p.2) || e, ?_, fun j => ?_, ?_⟩
    · simp [setPixels, setPixel_of_lt hp, heq]
    · rw [hcell, cell_toggle hp]
      by_cases hj : j = pixelIndex m p.1 p.2
      · subst hj
        simp [indices, hnotin]
      · simp [indices, hj]
    · have hsame : (∃ k ∈ indices m ps, (fb.toggle (pixelIndex m p.1 p.2)).cell k = true) ↔
          ∃ k ∈ indices m ps, fb.cell k = true := by
        constructor <;> rintro ⟨k, hk, h⟩ <;> refine ⟨k, hk, ?_⟩ <;>
          have hne : k ≠ pixelIndex m p.1 p.2 := fun e => hnotin (e ▸ hk) <;>
          simpa [cell_toggle hp, hne] using h
      simp only [Bool.or_eq_true, herased, hsame, indices, List.map_cons, List.exists_mem_cons_iff]

/-- In the full mode a blit always has a result (R131). -/
theorem setPixels_full (ps : List (Nat × Nat)) : ∃ fb' e, setPixels .full fb ps = some (fb', e) := by
  induction ps generalizing fb with
  | nil => exact ⟨fb, false, rfl⟩
  | cons p ps ih =>
    obtain ⟨fb', e, h⟩ := ih (fb := fb.toggle (pixelIndex .full p.1 p.2))
    exact ⟨fb', _, by simp [setPixels, setPixel_of_lt (pixelIndex_full_lt ..), h]; rfl⟩

/-- The pixels of a row are those of its set bits (R132). -/
theorem mem_rowPixels {px py : Nat} {b : Byte} {q : Nat × Nat} :
    q ∈ rowPixels px py b ↔ ∃ col < 8, b.getLsbD (7 - col) = true ∧ q = (px + col, py) := by
  simp only [rowPixels, List.mem_filterMap, List.mem_range]
  constructor
  · rintro ⟨col, hc, h⟩
    split at h
    · exact ⟨col, hc, ‹_›, by cases h; rfl⟩
    · cases h
  · rintro ⟨col, hc, hb, rfl⟩
    exact ⟨col, hc, by simp [hb]⟩

/-- The pixels of a sprite are those of its set bits (R132). -/
theorem mem_spritePixels {px py : Nat} {bs : List Byte} {q : Nat × Nat} :
    q ∈ spritePixels px py bs ↔
      ∃ row, ∃ h : row < bs.length, ∃ col < 8, bs[row].getLsbD (7 - col) = true ∧ q = (px + col, py + row) := by
  induction bs generalizing py with
  | nil => simp [spritePixels]
  | cons b bs ih =>
    rw [spritePixels, List.mem_append, mem_rowPixels, ih]
    constructor
    · rintro (⟨col, hc, hb, rfl⟩ | ⟨row, h, col, hc, hb, rfl⟩)
      · exact ⟨0, by simp, col, hc, by simpa using hb, by simp⟩
      · exact ⟨row + 1, by simpa using h, col, hc, by simpa using hb, by simp [Nat.add_assoc, Nat.add_comm 1]⟩
    · rintro ⟨row, h, col, hc, hb, rfl⟩
      cases row with
      | zero => exact .inl ⟨col, hc, by simpa using hb, by simp⟩
      | succ row =>
        exact .inr ⟨row, by simpa using h, col, hc, by simpa using hb, by simp [Nat.add_assoc, Nat.add_comm 1]⟩

/-- A sprite reads as many bytes as it has rows (R132). -/
@[simp] theorem length_spriteRows (s : State) (n : Nibble) : (spriteRows s n).length = n.toNat := by
  simp [spriteRows, State.bytes]

/-- Row r of a sprite is the byte at I + r (R132). -/
theorem getElem_spriteRows (s : State) (n : Nibble) (r : Nat) (h : r < (spriteRows s n).length) :
    (spriteRows s n)[r] = s.byte (dataAddr s r) := by
  simp [spriteRows, State.bytes, dataAddr]

/-- No pixel of a sprite is drawn twice (R133 (a)). -/
theorem nodup_spritePixels (px py : Nat) (bs : List Byte) : (spritePixels px py bs).Nodup := by
  induction bs generalizing py with
  | nil => simp [spritePixels]
  | cons b bs ih =>
    refine List.nodup_append.2 ⟨?_, ih _, ?_⟩
    · refine List.Nodup.filterMap (fun a a' q h h' => ?_) List.nodup_range
      simp only [Option.mem_def, Option.ite_none_right_eq_some, Option.some.injEq] at h h'
      have := h.2.trans h'.2.symm
      simpa using this
    · rintro q hq q' hq' rfl
      obtain ⟨_, _, _, rfl⟩ := mem_rowPixels.1 hq
      obtain ⟨_, _, _, _, _, e⟩ := mem_spritePixels.1 hq'
      simp at e; omega

/-- Nor is a cell reached by two of them, in either wrap mode: a sprite is no wider and no higher than the screen (R131, R135). -/
theorem nodup_indices_spritePixels {px py : Nat} {bs : List Byte} (h : bs.length ≤ 15)
    (hlt : ∀ k ∈ indices m (spritePixels px py bs), k < 2048) : (indices m (spritePixels px py bs)).Nodup := by
  refine (List.nodup_map_iff_inj_on (nodup_spritePixels px py bs)).2 fun p hp q hq e => ?_
  have l1 := hlt _ (List.mem_map.2 ⟨p, hp, rfl⟩)
  have l2 := hlt _ (List.mem_map.2 ⟨q, hq, rfl⟩)
  obtain ⟨r1, h1, c1, hc1, -, rfl⟩ := mem_spritePixels.1 hp
  obtain ⟨r2, h2, c2, hc2, -, rfl⟩ := mem_spritePixels.1 hq
  cases m
  · simp only [pixelIndex, Config.fbWidth, Config.fbHeight] at e
    ext <;> simp <;> omega
  · simp only [pixelIndex, wrapOnce, Config.fbWidth, Config.fbHeight] at e l1 l2
    ext <;> simp <;> (repeat' split at e) <;> (repeat' split at l1) <;> (repeat' split at l2) <;> omega

end Sys2Proof.Machine
end

