-- ==== Sys2Proof/Laws/Memory.lean ====
section
/-! SUPPORT. The laws of memory: a read gives the latest write to its address, a write leaves every other address alone, and
every operation keeps the canonical form. The first two hold of any list of cells. -/

namespace Sys2Proof.Machine.Memory

open Sys2Proof Sys2Proof.Machine

variable {f : Config.Font} {m : Memory} {a b : Nat} {v : Byte}

theorem read_filter : read f (m.filter (fun c => c.1 != a)) b = if b = a then unlisted f b else read f m b := by
  induction m with
  | nil => simp [read]
  | cons c m ih =>
    by_cases hc : c.1 = a
    · rw [List.filter_cons_of_neg (by simp [hc]), ih]
      by_cases hb : b = a
      · simp [hb]
      · have : ¬ a = b := fun e => hb e.symm
        simp [hb, read, hc, this]
    · rw [List.filter_cons_of_pos (by simp [hc]), read, ih]
      by_cases hb : b = a
      · subst hb; simp [hc]
      · simp [hb, read]

theorem read_insert (h : ∀ c ∈ m, c.1 ≠ a) : read f (insert m a v) b = if b = a then v else read f m b := by
  induction m with
  | nil =>
    by_cases hb : b = a
    · simp [insert, read, hb]
    · have : ¬ a = b := fun e => hb e.symm
      simp [insert, read, hb, this]
  | cons c m ih =>
    have ih' := ih (fun c hc => h c (List.mem_cons_of_mem _ hc))
    have hc := h c (List.mem_cons_self ..)
    unfold insert
    split
    · by_cases hb : b = a
      · simp [read, hb]
      · have : ¬ a = b := fun e => hb e.symm
        simp [read, hb, this]
    · rw [read, ih', read]
      by_cases hb : b = a
      · subst hb; simp [hc]
      · simp [hb]

/-- A read after a write (R39, R40). -/
theorem read_write : read f (write f m a v) b = if b = a then v else read f m b := by
  unfold write
  by_cases hv : v = unlisted f a
  · simp only [hv, if_true, read_filter]
    by_cases hb : b = a <;> simp [hb]
  · simp only [hv, if_false]
    rw [read_insert (by intro c hc; simpa using (List.mem_filter.1 hc).2), read_filter]
    by_cases hb : b = a <;> simp [hb]

/-- A read after a block write (R40). -/
theorem read_writeBytes (bs : List Byte) :
    read f (writeBytes f m a bs) b = if h : a ≤ b ∧ b < a + bs.length then bs[b - a]'(by omega) else read f m b := by
  induction bs generalizing m a with
  | nil => simp [writeBytes]
  | cons x bs ih =>
    rw [writeBytes, ih]
    by_cases h1 : a + 1 ≤ b ∧ b < a + 1 + bs.length
    · have h2 : a ≤ b ∧ b < a + (x :: bs).length := by simp only [List.length_cons]; omega
      rw [dif_pos h1, dif_pos h2, List.getElem_cons]
      have : b - a ≠ 0 := by omega
      simp [this, Nat.sub_sub]
    · rw [dif_neg h1, read_write]
      by_cases hb : b = a
      · subst hb; simp
      · have h2 : ¬ (a ≤ b ∧ b < a + (x :: bs).length) := by simp only [List.length_cons]; omega
        rw [dif_neg h2]; simp [hb]

theorem read_writeBytes_outside (bs : List Byte) (h : b < a ∨ a + bs.length ≤ b) :
    read f (writeBytes f m a bs) b = read f m b := by
  rw [read_writeBytes, dif_neg (by omega)]

theorem read_writeBytes_inside {bs : List Byte} {k : Nat} (h : k < bs.length) :
    read f (writeBytes f m a bs) (a + k) = bs[k] := by
  rw [read_writeBytes, dif_pos (by omega)]; simp

theorem mem_insert {c : Host.Cell} : c ∈ insert m a v ↔ c = (a, v) ∨ c ∈ m := by
  induction m with
  | nil => simp [insert]
  | cons d m ih =>
    unfold insert
    split
    · simp
    · simp only [List.mem_cons, ih]; tauto

theorem pairwise_insert (hm : m.Pairwise (fun c d => c.1 < d.1)) (h : ∀ c ∈ m, c.1 ≠ a) :
    (insert m a v).Pairwise (fun c d => c.1 < d.1) := by
  induction m with
  | nil => simp [insert]
  | cons c m ih =>
    have ⟨h1, h2⟩ := List.pairwise_cons.1 hm
    have hc := h c (List.mem_cons_self ..)
    unfold insert
    split
    · rename_i hlt
      refine List.pairwise_cons.2 ⟨fun d hd => ?_, hm⟩
      rcases List.mem_cons.1 hd with rfl | hd
      · exact hlt
      · exact Nat.lt_trans hlt (h1 d hd)
    · refine List.pairwise_cons.2 ⟨fun d hd => ?_, ih h2 (fun c hc => h c (List.mem_cons_of_mem _ hc))⟩
      rcases mem_insert.1 hd with rfl | hd
      · exact Nat.lt_of_le_of_ne (by simp; omega) hc
      · exact h1 d hd

/-- A write keeps the canonical form. -/
theorem wf_write (hm : wf f m) (ha : a < Config.memSize) : wf f (write f m a v) := by
  obtain ⟨hp, hall⟩ := hm
  have hp' : (m.filter (fun c => c.1 != a)).Pairwise (fun c d => c.1 < d.1) := hp.filter _
  have hall' : ∀ c ∈ m.filter (fun c => c.1 != a), c.1 < Config.memSize ∧ c.2 ≠ unlisted f c.1 :=
    fun c hc => hall c (List.mem_filter.1 hc).1
  unfold write
  by_cases hv : v = unlisted f a
  · simp only [hv, if_true]; exact ⟨hp', hall'⟩
  · simp only [hv, if_false]
    refine ⟨pairwise_insert hp' (by intro c hc; simpa using (List.mem_filter.1 hc).2), fun c hc => ?_⟩
    rcases mem_insert.1 hc with rfl | hc
    · exact ⟨ha, hv⟩
    · exact hall' c hc

/-- A block write inside memory keeps the canonical form. -/
theorem wf_writeBytes (bs : List Byte) (hm : wf f m) (h : a + bs.length ≤ Config.memSize) : wf f (writeBytes f m a bs) := by
  induction bs generalizing m a with
  | nil => exact hm
  | cons x bs ih =>
    simp only [List.length_cons] at h
    exact ih (wf_write hm (by omega)) (by omega)

/-- The memory of the reset state has the canonical form. -/
theorem wf_nil : wf f [] := ⟨List.Pairwise.nil, by simp⟩

end Sys2Proof.Machine.Memory

namespace Sys2Proof.Machine

open Sys2Proof

variable {s : State} {a b : Nat} {bs : List Byte}

/-- A byte after a block write (R40). -/
theorem State.byte_storeBytes :
    (s.storeBytes a bs).byte b = if h : a ≤ b ∧ b < a + bs.length then bs[b - a]'(by omega) else s.byte b :=
  Memory.read_writeBytes bs

theorem State.byte_storeBytes_outside (h : b < a ∨ a + bs.length ≤ b) : (s.storeBytes a bs).byte b = s.byte b :=
  Memory.read_writeBytes_outside bs h

theorem State.byte_storeBytes_inside {k : Nat} (h : k < bs.length) : (s.storeBytes a bs).byte (a + k) = bs[k] :=
  Memory.read_writeBytes_inside h

/-- A block write inside memory keeps the canonical form. -/
theorem State.storeBytes_wf (hm : Memory.wf s.cfg.font s.mem) (h : a + bs.length ≤ Config.memSize) :
    Memory.wf (s.storeBytes a bs).cfg.font (s.storeBytes a bs).mem :=
  Memory.wf_writeBytes bs hm h

end Sys2Proof.Machine
end

