-- ==== Sys2Proof/Laws/State.lean ====
section
/-! SUPPORT. One lemma per field of State per named update, each true by rfl, and reading a register after writing one. -/

namespace Sys2Proof.Machine

open Sys2Proof

variable (s : State)

@[simp] theorem State.setReg_v (x : Reg) (b : Byte) : (s.setReg x b).v = s.v.set x.toNat b x.isLt := rfl
@[simp] theorem State.setReg_i (x : Reg) (b : Byte) : (s.setReg x b).i = s.i := rfl
@[simp] theorem State.setReg_pc (x : Reg) (b : Byte) : (s.setReg x b).pc = s.pc := rfl
@[simp] theorem State.setReg_sp (x : Reg) (b : Byte) : (s.setReg x b).sp = s.sp := rfl
@[simp] theorem State.setReg_stack (x : Reg) (b : Byte) : (s.setReg x b).stack = s.stack := rfl
@[simp] theorem State.setReg_dt (x : Reg) (b : Byte) : (s.setReg x b).dt = s.dt := rfl
@[simp] theorem State.setReg_st (x : Reg) (b : Byte) : (s.setReg x b).st = s.st := rfl
@[simp] theorem State.setReg_mem (x : Reg) (b : Byte) : (s.setReg x b).mem = s.mem := rfl
@[simp] theorem State.setReg_fb (x : Reg) (b : Byte) : (s.setReg x b).fb = s.fb := rfl
@[simp] theorem State.setReg_mode (x : Reg) (b : Byte) : (s.setReg x b).mode = s.mode := rfl
@[simp] theorem State.setReg_waitX (x : Reg) (b : Byte) : (s.setReg x b).waitX = s.waitX := rfl
@[simp] theorem State.setReg_redraw (x : Reg) (b : Byte) : (s.setReg x b).redraw = s.redraw := rfl
@[simp] theorem State.setReg_keys (x : Reg) (b : Byte) : (s.setReg x b).keys = s.keys := rfl
@[simp] theorem State.setReg_cfg (x : Reg) (b : Byte) : (s.setReg x b).cfg = s.cfg := rfl
@[simp] theorem State.setReg_held (x : Reg) (b : Byte) : (s.setReg x b).held = s.held := rfl
@[simp] theorem State.setReg_loadLen (x : Reg) (b : Byte) : (s.setReg x b).loadLen = s.loadLen := rfl
@[simp] theorem State.setReg_rndIndex (x : Reg) (b : Byte) : (s.setReg x b).rndIndex = s.rndIndex := rfl
@[simp] theorem State.setReg_out (x : Reg) (b : Byte) : (s.setReg x b).out = s.out := rfl

@[simp] theorem State.setI_v (w : Word) : (s.setI w).v = s.v := rfl
@[simp] theorem State.setI_i (w : Word) : (s.setI w).i = w := rfl
@[simp] theorem State.setI_pc (w : Word) : (s.setI w).pc = s.pc := rfl
@[simp] theorem State.setI_sp (w : Word) : (s.setI w).sp = s.sp := rfl
@[simp] theorem State.setI_stack (w : Word) : (s.setI w).stack = s.stack := rfl
@[simp] theorem State.setI_dt (w : Word) : (s.setI w).dt = s.dt := rfl
@[simp] theorem State.setI_st (w : Word) : (s.setI w).st = s.st := rfl
@[simp] theorem State.setI_mem (w : Word) : (s.setI w).mem = s.mem := rfl
@[simp] theorem State.setI_fb (w : Word) : (s.setI w).fb = s.fb := rfl
@[simp] theorem State.setI_mode (w : Word) : (s.setI w).mode = s.mode := rfl
@[simp] theorem State.setI_waitX (w : Word) : (s.setI w).waitX = s.waitX := rfl
@[simp] theorem State.setI_redraw (w : Word) : (s.setI w).redraw = s.redraw := rfl
@[simp] theorem State.setI_keys (w : Word) : (s.setI w).keys = s.keys := rfl
@[simp] theorem State.setI_cfg (w : Word) : (s.setI w).cfg = s.cfg := rfl
@[simp] theorem State.setI_held (w : Word) : (s.setI w).held = s.held := rfl
@[simp] theorem State.setI_loadLen (w : Word) : (s.setI w).loadLen = s.loadLen := rfl
@[simp] theorem State.setI_rndIndex (w : Word) : (s.setI w).rndIndex = s.rndIndex := rfl
@[simp] theorem State.setI_out (w : Word) : (s.setI w).out = s.out := rfl

@[simp] theorem State.setPc_v (w : Word) : (s.setPc w).v = s.v := rfl
@[simp] theorem State.setPc_i (w : Word) : (s.setPc w).i = s.i := rfl
@[simp] theorem State.setPc_pc (w : Word) : (s.setPc w).pc = w := rfl
@[simp] theorem State.setPc_sp (w : Word) : (s.setPc w).sp = s.sp := rfl
@[simp] theorem State.setPc_stack (w : Word) : (s.setPc w).stack = s.stack := rfl
@[simp] theorem State.setPc_dt (w : Word) : (s.setPc w).dt = s.dt := rfl
@[simp] theorem State.setPc_st (w : Word) : (s.setPc w).st = s.st := rfl
@[simp] theorem State.setPc_mem (w : Word) : (s.setPc w).mem = s.mem := rfl
@[simp] theorem State.setPc_fb (w : Word) : (s.setPc w).fb = s.fb := rfl
@[simp] theorem State.setPc_mode (w : Word) : (s.setPc w).mode = s.mode := rfl
@[simp] theorem State.setPc_waitX (w : Word) : (s.setPc w).waitX = s.waitX := rfl
@[simp] theorem State.setPc_redraw (w : Word) : (s.setPc w).redraw = s.redraw := rfl
@[simp] theorem State.setPc_keys (w : Word) : (s.setPc w).keys = s.keys := rfl
@[simp] theorem State.setPc_cfg (w : Word) : (s.setPc w).cfg = s.cfg := rfl
@[simp] theorem State.setPc_held (w : Word) : (s.setPc w).held = s.held := rfl
@[simp] theorem State.setPc_loadLen (w : Word) : (s.setPc w).loadLen = s.loadLen := rfl
@[simp] theorem State.setPc_rndIndex (w : Word) : (s.setPc w).rndIndex = s.rndIndex := rfl
@[simp] theorem State.setPc_out (w : Word) : (s.setPc w).out = s.out := rfl

@[simp] theorem State.setDt_v (b : Byte) : (s.setDt b).v = s.v := rfl
@[simp] theorem State.setDt_i (b : Byte) : (s.setDt b).i = s.i := rfl
@[simp] theorem State.setDt_pc (b : Byte) : (s.setDt b).pc = s.pc := rfl
@[simp] theorem State.setDt_sp (b : Byte) : (s.setDt b).sp = s.sp := rfl
@[simp] theorem State.setDt_stack (b : Byte) : (s.setDt b).stack = s.stack := rfl
@[simp] theorem State.setDt_dt (b : Byte) : (s.setDt b).dt = b := rfl
@[simp] theorem State.setDt_st (b : Byte) : (s.setDt b).st = s.st := rfl
@[simp] theorem State.setDt_mem (b : Byte) : (s.setDt b).mem = s.mem := rfl
@[simp] theorem State.setDt_fb (b : Byte) : (s.setDt b).fb = s.fb := rfl
@[simp] theorem State.setDt_mode (b : Byte) : (s.setDt b).mode = s.mode := rfl
@[simp] theorem State.setDt_waitX (b : Byte) : (s.setDt b).waitX = s.waitX := rfl
@[simp] theorem State.setDt_redraw (b : Byte) : (s.setDt b).redraw = s.redraw := rfl
@[simp] theorem State.setDt_keys (b : Byte) : (s.setDt b).keys = s.keys := rfl
@[simp] theorem State.setDt_cfg (b : Byte) : (s.setDt b).cfg = s.cfg := rfl
@[simp] theorem State.setDt_held (b : Byte) : (s.setDt b).held = s.held := rfl
@[simp] theorem State.setDt_loadLen (b : Byte) : (s.setDt b).loadLen = s.loadLen := rfl
@[simp] theorem State.setDt_rndIndex (b : Byte) : (s.setDt b).rndIndex = s.rndIndex := rfl
@[simp] theorem State.setDt_out (b : Byte) : (s.setDt b).out = s.out := rfl

@[simp] theorem State.setSt_v (b : Byte) : (s.setSt b).v = s.v := rfl
@[simp] theorem State.setSt_i (b : Byte) : (s.setSt b).i = s.i := rfl
@[simp] theorem State.setSt_pc (b : Byte) : (s.setSt b).pc = s.pc := rfl
@[simp] theorem State.setSt_sp (b : Byte) : (s.setSt b).sp = s.sp := rfl
@[simp] theorem State.setSt_stack (b : Byte) : (s.setSt b).stack = s.stack := rfl
@[simp] theorem State.setSt_dt (b : Byte) : (s.setSt b).dt = s.dt := rfl
@[simp] theorem State.setSt_st (b : Byte) : (s.setSt b).st = b := rfl
@[simp] theorem State.setSt_mem (b : Byte) : (s.setSt b).mem = s.mem := rfl
@[simp] theorem State.setSt_fb (b : Byte) : (s.setSt b).fb = s.fb := rfl
@[simp] theorem State.setSt_mode (b : Byte) : (s.setSt b).mode = s.mode := rfl
@[simp] theorem State.setSt_waitX (b : Byte) : (s.setSt b).waitX = s.waitX := rfl
@[simp] theorem State.setSt_redraw (b : Byte) : (s.setSt b).redraw = s.redraw := rfl
@[simp] theorem State.setSt_keys (b : Byte) : (s.setSt b).keys = s.keys := rfl
@[simp] theorem State.setSt_cfg (b : Byte) : (s.setSt b).cfg = s.cfg := rfl
@[simp] theorem State.setSt_held (b : Byte) : (s.setSt b).held = s.held := rfl
@[simp] theorem State.setSt_loadLen (b : Byte) : (s.setSt b).loadLen = s.loadLen := rfl
@[simp] theorem State.setSt_rndIndex (b : Byte) : (s.setSt b).rndIndex = s.rndIndex := rfl
@[simp] theorem State.setSt_out (b : Byte) : (s.setSt b).out = s.out := rfl

@[simp] theorem State.storeBytes_v (a : Nat) (bs : List Byte) : (s.storeBytes a bs).v = s.v := rfl
@[simp] theorem State.storeBytes_i (a : Nat) (bs : List Byte) : (s.storeBytes a bs).i = s.i := rfl
@[simp] theorem State.storeBytes_pc (a : Nat) (bs : List Byte) : (s.storeBytes a bs).pc = s.pc := rfl
@[simp] theorem State.storeBytes_sp (a : Nat) (bs : List Byte) : (s.storeBytes a bs).sp = s.sp := rfl
@[simp] theorem State.storeBytes_stack (a : Nat) (bs : List Byte) : (s.storeBytes a bs).stack = s.stack := rfl
@[simp] theorem State.storeBytes_dt (a : Nat) (bs : List Byte) : (s.storeBytes a bs).dt = s.dt := rfl
@[simp] theorem State.storeBytes_st (a : Nat) (bs : List Byte) : (s.storeBytes a bs).st = s.st := rfl
@[simp] theorem State.storeBytes_mem (a : Nat) (bs : List Byte) : (s.storeBytes a bs).mem = Memory.writeBytes s.cfg.font s.mem a bs := rfl
@[simp] theorem State.storeBytes_fb (a : Nat) (bs : List Byte) : (s.storeBytes a bs).fb = s.fb := rfl
@[simp] theorem State.storeBytes_mode (a : Nat) (bs : List Byte) : (s.storeBytes a bs).mode = s.mode := rfl
@[simp] theorem State.storeBytes_waitX (a : Nat) (bs : List Byte) : (s.storeBytes a bs).waitX = s.waitX := rfl
@[simp] theorem State.storeBytes_redraw (a : Nat) (bs : List Byte) : (s.storeBytes a bs).redraw = s.redraw := rfl
@[simp] theorem State.storeBytes_keys (a : Nat) (bs : List Byte) : (s.storeBytes a bs).keys = s.keys := rfl
@[simp] theorem State.storeBytes_cfg (a : Nat) (bs : List Byte) : (s.storeBytes a bs).cfg = s.cfg := rfl
@[simp] theorem State.storeBytes_held (a : Nat) (bs : List Byte) : (s.storeBytes a bs).held = s.held := rfl
@[simp] theorem State.storeBytes_loadLen (a : Nat) (bs : List Byte) : (s.storeBytes a bs).loadLen = s.loadLen := rfl
@[simp] theorem State.storeBytes_rndIndex (a : Nat) (bs : List Byte) : (s.storeBytes a bs).rndIndex = s.rndIndex := rfl
@[simp] theorem State.storeBytes_out (a : Nat) (bs : List Byte) : (s.storeBytes a bs).out = s.out := rfl

@[simp] theorem State.redrawWith_v (fb : Framebuffer) : (s.redrawWith fb).v = s.v := rfl
@[simp] theorem State.redrawWith_i (fb : Framebuffer) : (s.redrawWith fb).i = s.i := rfl
@[simp] theorem State.redrawWith_pc (fb : Framebuffer) : (s.redrawWith fb).pc = s.pc := rfl
@[simp] theorem State.redrawWith_sp (fb : Framebuffer) : (s.redrawWith fb).sp = s.sp := rfl
@[simp] theorem State.redrawWith_stack (fb : Framebuffer) : (s.redrawWith fb).stack = s.stack := rfl
@[simp] theorem State.redrawWith_dt (fb : Framebuffer) : (s.redrawWith fb).dt = s.dt := rfl
@[simp] theorem State.redrawWith_st (fb : Framebuffer) : (s.redrawWith fb).st = s.st := rfl
@[simp] theorem State.redrawWith_mem (fb : Framebuffer) : (s.redrawWith fb).mem = s.mem := rfl
@[simp] theorem State.redrawWith_fb (fb : Framebuffer) : (s.redrawWith fb).fb = fb := rfl
@[simp] theorem State.redrawWith_mode (fb : Framebuffer) : (s.redrawWith fb).mode = s.mode := rfl
@[simp] theorem State.redrawWith_waitX (fb : Framebuffer) : (s.redrawWith fb).waitX = s.waitX := rfl
@[simp] theorem State.redrawWith_redraw (fb : Framebuffer) : (s.redrawWith fb).redraw = true := rfl
@[simp] theorem State.redrawWith_keys (fb : Framebuffer) : (s.redrawWith fb).keys = s.keys := rfl
@[simp] theorem State.redrawWith_cfg (fb : Framebuffer) : (s.redrawWith fb).cfg = s.cfg := rfl
@[simp] theorem State.redrawWith_held (fb : Framebuffer) : (s.redrawWith fb).held = s.held := rfl
@[simp] theorem State.redrawWith_loadLen (fb : Framebuffer) : (s.redrawWith fb).loadLen = s.loadLen := rfl
@[simp] theorem State.redrawWith_rndIndex (fb : Framebuffer) : (s.redrawWith fb).rndIndex = s.rndIndex := rfl
@[simp] theorem State.redrawWith_out (fb : Framebuffer) : (s.redrawWith fb).out = s.out := rfl

@[simp] theorem State.loadRegsThrough_i (x : Reg) : (s.loadRegsThrough x).i = s.i := rfl
@[simp] theorem State.loadRegsThrough_pc (x : Reg) : (s.loadRegsThrough x).pc = s.pc := rfl
@[simp] theorem State.loadRegsThrough_sp (x : Reg) : (s.loadRegsThrough x).sp = s.sp := rfl
@[simp] theorem State.loadRegsThrough_stack (x : Reg) : (s.loadRegsThrough x).stack = s.stack := rfl
@[simp] theorem State.loadRegsThrough_dt (x : Reg) : (s.loadRegsThrough x).dt = s.dt := rfl
@[simp] theorem State.loadRegsThrough_st (x : Reg) : (s.loadRegsThrough x).st = s.st := rfl
@[simp] theorem State.loadRegsThrough_mem (x : Reg) : (s.loadRegsThrough x).mem = s.mem := rfl
@[simp] theorem State.loadRegsThrough_fb (x : Reg) : (s.loadRegsThrough x).fb = s.fb := rfl
@[simp] theorem State.loadRegsThrough_mode (x : Reg) : (s.loadRegsThrough x).mode = s.mode := rfl
@[simp] theorem State.loadRegsThrough_waitX (x : Reg) : (s.loadRegsThrough x).waitX = s.waitX := rfl
@[simp] theorem State.loadRegsThrough_redraw (x : Reg) : (s.loadRegsThrough x).redraw = s.redraw := rfl
@[simp] theorem State.loadRegsThrough_keys (x : Reg) : (s.loadRegsThrough x).keys = s.keys := rfl
@[simp] theorem State.loadRegsThrough_cfg (x : Reg) : (s.loadRegsThrough x).cfg = s.cfg := rfl
@[simp] theorem State.loadRegsThrough_held (x : Reg) : (s.loadRegsThrough x).held = s.held := rfl
@[simp] theorem State.loadRegsThrough_loadLen (x : Reg) : (s.loadRegsThrough x).loadLen = s.loadLen := rfl
@[simp] theorem State.loadRegsThrough_rndIndex (x : Reg) : (s.loadRegsThrough x).rndIndex = s.rndIndex := rfl
@[simp] theorem State.loadRegsThrough_out (x : Reg) : (s.loadRegsThrough x).out = s.out := rfl

@[simp] theorem State.withFault_v (f : Fault) : (s.withFault f).v = s.v := rfl
@[simp] theorem State.withFault_i (f : Fault) : (s.withFault f).i = s.i := rfl
@[simp] theorem State.withFault_pc (f : Fault) : (s.withFault f).pc = s.pc := rfl
@[simp] theorem State.withFault_sp (f : Fault) : (s.withFault f).sp = s.sp := rfl
@[simp] theorem State.withFault_stack (f : Fault) : (s.withFault f).stack = s.stack := rfl
@[simp] theorem State.withFault_dt (f : Fault) : (s.withFault f).dt = s.dt := rfl
@[simp] theorem State.withFault_st (f : Fault) : (s.withFault f).st = s.st := rfl
@[simp] theorem State.withFault_mem (f : Fault) : (s.withFault f).mem = s.mem := rfl
@[simp] theorem State.withFault_fb (f : Fault) : (s.withFault f).fb = s.fb := rfl
@[simp] theorem State.withFault_mode (f : Fault) : (s.withFault f).mode = s.mode := rfl
@[simp] theorem State.withFault_waitX (f : Fault) : (s.withFault f).waitX = s.waitX := rfl
@[simp] theorem State.withFault_redraw (f : Fault) : (s.withFault f).redraw = s.redraw := rfl
@[simp] theorem State.withFault_keys (f : Fault) : (s.withFault f).keys = s.keys := rfl
@[simp] theorem State.withFault_cfg (f : Fault) : (s.withFault f).cfg = s.cfg := rfl
@[simp] theorem State.withFault_held (f : Fault) : (s.withFault f).held = s.held := rfl
@[simp] theorem State.withFault_loadLen (f : Fault) : (s.withFault f).loadLen = s.loadLen := rfl
@[simp] theorem State.withFault_rndIndex (f : Fault) : (s.withFault f).rndIndex = s.rndIndex := rfl
@[simp] theorem State.withFault_out (f : Fault) : (s.withFault f).out = { s.out with fault := some f } := rfl

@[simp] theorem advance_v (b : TraceBody) : (advance b s).v = s.v := rfl
@[simp] theorem advance_i (b : TraceBody) : (advance b s).i = s.i := rfl
@[simp] theorem advance_pc (b : TraceBody) : (advance b s).pc = s.pc + 2 := rfl
@[simp] theorem advance_sp (b : TraceBody) : (advance b s).sp = s.sp := rfl
@[simp] theorem advance_stack (b : TraceBody) : (advance b s).stack = s.stack := rfl
@[simp] theorem advance_dt (b : TraceBody) : (advance b s).dt = s.dt := rfl
@[simp] theorem advance_st (b : TraceBody) : (advance b s).st = s.st := rfl
@[simp] theorem advance_mem (b : TraceBody) : (advance b s).mem = s.mem := rfl
@[simp] theorem advance_fb (b : TraceBody) : (advance b s).fb = s.fb := rfl
@[simp] theorem advance_mode (b : TraceBody) : (advance b s).mode = s.mode := rfl
@[simp] theorem advance_waitX (b : TraceBody) : (advance b s).waitX = s.waitX := rfl
@[simp] theorem advance_redraw (b : TraceBody) : (advance b s).redraw = s.redraw := rfl
@[simp] theorem advance_keys (b : TraceBody) : (advance b s).keys = s.keys := rfl
@[simp] theorem advance_cfg (b : TraceBody) : (advance b s).cfg = s.cfg := rfl
@[simp] theorem advance_held (b : TraceBody) : (advance b s).held = s.held := rfl
@[simp] theorem advance_loadLen (b : TraceBody) : (advance b s).loadLen = s.loadLen := rfl
@[simp] theorem advance_rndIndex (b : TraceBody) : (advance b s).rndIndex = s.rndIndex := rfl
@[simp] theorem advance_out (b : TraceBody) : (advance b s).out = { trace := some ⟨s.pc, b⟩, tone := s.tone } := rfl

@[simp] theorem framePhase_v : (framePhase s).v = s.v := by unfold framePhase; split <;> rfl
@[simp] theorem framePhase_i : (framePhase s).i = s.i := by unfold framePhase; split <;> rfl
@[simp] theorem framePhase_pc : (framePhase s).pc = s.pc := by unfold framePhase; split <;> rfl
@[simp] theorem framePhase_sp : (framePhase s).sp = s.sp := by unfold framePhase; split <;> rfl
@[simp] theorem framePhase_stack : (framePhase s).stack = s.stack := by unfold framePhase; split <;> rfl
@[simp] theorem framePhase_dt : (framePhase s).dt = s.dt := by unfold framePhase; split <;> rfl
@[simp] theorem framePhase_st : (framePhase s).st = s.st := by unfold framePhase; split <;> rfl
@[simp] theorem framePhase_mem : (framePhase s).mem = s.mem := by unfold framePhase; split <;> rfl
@[simp] theorem framePhase_fb : (framePhase s).fb = s.fb := by unfold framePhase; split <;> rfl
@[simp] theorem framePhase_mode : (framePhase s).mode = s.mode := by unfold framePhase; split <;> rfl
@[simp] theorem framePhase_waitX : (framePhase s).waitX = s.waitX := by unfold framePhase; split <;> rfl
@[simp] theorem framePhase_redraw : (framePhase s).redraw = false := by
  cases h : s.redraw <;> simp [framePhase, h]
@[simp] theorem framePhase_keys : (framePhase s).keys = s.keys := by unfold framePhase; split <;> rfl
@[simp] theorem framePhase_cfg : (framePhase s).cfg = s.cfg := by unfold framePhase; split <;> rfl
@[simp] theorem framePhase_held : (framePhase s).held = s.held := by unfold framePhase; split <;> rfl
@[simp] theorem framePhase_loadLen : (framePhase s).loadLen = s.loadLen := by unfold framePhase; split <;> rfl
@[simp] theorem framePhase_rndIndex : (framePhase s).rndIndex = s.rndIndex := by unfold framePhase; split <;> rfl
@[simp] theorem framePhase_out : (framePhase s).out = { s.out with frame := if s.redraw then some s.fb else s.out.frame } := by
  cases h : s.redraw <;> simp [framePhase, h]

@[simp] theorem tickPhase_v : (tickPhase s).v = s.v := rfl
@[simp] theorem tickPhase_i : (tickPhase s).i = s.i := rfl
@[simp] theorem tickPhase_pc : (tickPhase s).pc = s.pc := rfl
@[simp] theorem tickPhase_sp : (tickPhase s).sp = s.sp := rfl
@[simp] theorem tickPhase_stack : (tickPhase s).stack = s.stack := rfl
@[simp] theorem tickPhase_dt : (tickPhase s).dt = countDown s.dt := rfl
@[simp] theorem tickPhase_st : (tickPhase s).st = countDown s.st := rfl
@[simp] theorem tickPhase_mem : (tickPhase s).mem = s.mem := rfl
@[simp] theorem tickPhase_fb : (tickPhase s).fb = s.fb := rfl
@[simp] theorem tickPhase_mode : (tickPhase s).mode = s.mode := rfl
@[simp] theorem tickPhase_waitX : (tickPhase s).waitX = s.waitX := rfl
@[simp] theorem tickPhase_redraw : (tickPhase s).redraw = s.redraw := rfl
@[simp] theorem tickPhase_keys : (tickPhase s).keys = s.keys := rfl
@[simp] theorem tickPhase_cfg : (tickPhase s).cfg = s.cfg := rfl
@[simp] theorem tickPhase_held : (tickPhase s).held = s.held := rfl
@[simp] theorem tickPhase_loadLen : (tickPhase s).loadLen = s.loadLen := rfl
@[simp] theorem tickPhase_rndIndex : (tickPhase s).rndIndex = s.rndIndex := rfl
@[simp] theorem tickPhase_out : (tickPhase s).out = { s.out with tone := decide (0 < (countDown s.st).toNat) } := rfl

@[simp] theorem State.reg_withFault (f : Fault) (r : Reg) : (s.withFault f).reg r = s.reg r := rfl
@[simp] theorem reg_advance (b : TraceBody) (r : Reg) : (advance b s).reg r = s.reg r := rfl
@[simp] theorem reg_tickPhase (r : Reg) : (tickPhase s).reg r = s.reg r := rfl
@[simp] theorem reg_framePhase (r : Reg) : (framePhase s).reg r = s.reg r := by unfold framePhase; split <;> rfl

@[simp] theorem State.reg_setReg_self (x : Reg) (b : Byte) : (s.setReg x b).reg x = b := by
  simp [State.reg]

theorem State.reg_setReg_ne {x r : Reg} (b : Byte) (h : r ≠ x) : (s.setReg x b).reg r = s.reg r := by
  have : x.toNat ≠ r.toNat := fun e => h (BitVec.eq_of_toNat_eq e.symm)
  simp [State.reg, this]

/-- Reading any register after writing one. -/
theorem State.reg_setReg (x r : Reg) (b : Byte) : (s.setReg x b).reg r = if r = x then b else s.reg r := by
  by_cases h : r = x
  · subst h; simp
  · simp [h, State.reg_setReg_ne]

/-- Registers are read from `v` alone. -/
theorem State.reg_of_v {s t : State} (h : t.v = s.v) (r : Reg) : t.reg r = s.reg r := by simp [State.reg, h]

@[simp] theorem State.reg_setI (w : Word) (r : Reg) : (s.setI w).reg r = s.reg r := rfl
@[simp] theorem State.reg_setPc (w : Word) (r : Reg) : (s.setPc w).reg r = s.reg r := rfl
@[simp] theorem State.reg_setDt (b : Byte) (r : Reg) : (s.setDt b).reg r = s.reg r := rfl
@[simp] theorem State.reg_setSt (b : Byte) (r : Reg) : (s.setSt b).reg r = s.reg r := rfl
@[simp] theorem State.reg_storeBytes (a : Nat) (bs : List Byte) (r : Reg) : (s.storeBytes a bs).reg r = s.reg r := rfl
@[simp] theorem State.reg_redrawWith (fb : Framebuffer) (r : Reg) : (s.redrawWith fb).reg r = s.reg r := rfl

/-- What a flag-writing instruction leaves in the registers: the result in Vx, the flag in VF unless x is 15, the rest as it
was (R113). -/
theorem State.reg_setFlagThenReg (c : Bool) (x : Reg) (b : Byte) (r : Reg) :
    (s.setFlagThenReg c x b).reg r = if r = x then b else if r = VF then flagByte c else s.reg r := by
  simp [State.setFlagThenReg, State.reg_setReg]

/-- A skip changes PC alone (R98). -/
theorem State.skipIf_eq (c : Bool) : s.skipIf c = s.setPc (if c then s.pc + 2 else s.pc) := by
  cases c <;> rfl

/-! ### Reading memory after an update of anything else -/

/-- Memory is read from `mem` and the font alone. -/
theorem State.byte_of_mem {s t : State} (hc : t.cfg = s.cfg) (hm : t.mem = s.mem) (a : Nat) : t.byte a = s.byte a := by
  simp [State.byte, hc, hm]

@[simp] theorem State.byte_setReg (x : Reg) (b : Byte) (a : Nat) : (s.setReg x b).byte a = s.byte a := rfl
@[simp] theorem State.byte_setI (w : Word) (a : Nat) : (s.setI w).byte a = s.byte a := rfl
@[simp] theorem State.byte_setPc (w : Word) (a : Nat) : (s.setPc w).byte a = s.byte a := rfl
@[simp] theorem State.byte_setDt (b : Byte) (a : Nat) : (s.setDt b).byte a = s.byte a := rfl
@[simp] theorem State.byte_setSt (b : Byte) (a : Nat) : (s.setSt b).byte a = s.byte a := rfl
@[simp] theorem State.byte_redrawWith (fb : Framebuffer) (a : Nat) : (s.redrawWith fb).byte a = s.byte a := rfl
@[simp] theorem State.byte_loadRegsThrough (x : Reg) (a : Nat) : (s.loadRegsThrough x).byte a = s.byte a := rfl
@[simp] theorem State.byte_withFault (f : Fault) (a : Nat) : (s.withFault f).byte a = s.byte a := rfl
@[simp] theorem byte_advance (b : TraceBody) (a : Nat) : (advance b s).byte a = s.byte a := rfl
@[simp] theorem byte_tickPhase (a : Nat) : (tickPhase s).byte a = s.byte a := rfl
@[simp] theorem byte_framePhase (a : Nat) : (framePhase s).byte a = s.byte a := by unfold framePhase; split <;> rfl

end Sys2Proof.Machine
end

