-- ==== Sys2Proof/Laws/Ops.lean ====
section
/-! SUPPORT. For each shared operation, what it can do, said once. -/

namespace Sys2Proof.Machine

open Sys2Proof

variable {s t : State}

/-- A fault changes the output record alone (R76). -/
theorem raise_next {f : Fault} (h : raise f s = .next t) : t = s.withFault f := by
  cases h; rfl

/-- In range, the check does nothing (R38). -/
theorem guardRange_inside {top : Nat} {r : Result} (h : top < 4096) : guardRange top s r = r := by
  simp [guardRange, h]

/-- Out of range, the check raises the fault with the highest address (R38, R154). -/
theorem guardRange_outside {top : Nat} {r : Result} (h : ¬ top < 4096) :
    guardRange top s r = raise (.addressRange .data top) s := by
  simp [guardRange, h]

/-- A push with a free slot (R14). -/
theorem push_free (w : Word) (h : s.sp.val < 16) :
    s.push w = some { s with stack := s.stack.set s.sp.val w h, sp := ⟨s.sp.val + 1, Nat.succ_lt_succ h⟩ } := by
  simp [State.push, h]

/-- A push on a full stack (R14). -/
theorem push_full (w : Word) (h : s.sp.val = 16) : s.push w = none := by simp [State.push, h]

/-- A pop from a stack that is not empty (R14). -/
theorem pop_occupied (h : 0 < s.sp.val) :
    s.pop = some (s.stack[s.sp.val - 1]'(by have := s.sp.isLt; omega),
      { s with sp := ⟨s.sp.val - 1, Nat.lt_of_le_of_lt (Nat.sub_le _ _) s.sp.isLt⟩ }) := by
  simp [State.pop, h]

/-- A pop from an empty stack (R14). -/
theorem pop_empty (h : s.sp.val = 0) : s.pop = none := by simp [State.pop, h]

/-- The phases after the execute phase keep the outcome (R76). -/
theorem finish_next_iff {r : Result} : finish r = .next t ↔ ∃ u, r = .next u ∧ t = tickPhase (framePhase u) := by
  cases r <;> simp [finish, eq_comm]

/-- Counting down stops at 0 (R78). -/
theorem countDown_toNat (b : Byte) : (countDown b).toNat = b.toNat - 1 := by
  unfold countDown
  split
  · have := b.isLt
    rw [BitVec.toNat_sub]; simp; omega
  · omega

/-- A register loaded as part of a block, or left alone (R125). -/
theorem reg_loadRegsThrough (x r : Reg) :
    (s.loadRegsThrough x).reg r = if r.toNat ≤ x.toNat then s.byte (dataAddr s r.toNat) else s.reg r := by
  simp [State.loadRegsThrough, State.reg]

/-- How many registers a block store stores (R124). -/
@[simp] theorem length_regsThrough (x : Reg) : (s.regsThrough x).length = x.toNat + 1 := by
  have := x.isLt
  simp [State.regsThrough]; omega

/-- The k-th byte of a block store is V[k] (R124). -/
theorem getElem_regsThrough (x r : Reg) (h : r.toNat ≤ x.toNat) :
    (s.regsThrough x)[r.toNat]'(by simp; omega) = s.reg r := by
  simp [State.regsThrough, State.reg]

@[simp] theorem length_decimalDigits (b : Byte) : (decimalDigits b).length = 3 := rfl

/-- The frame phase without a request does nothing (R77). -/
theorem framePhase_idle (h : s.redraw = false) : framePhase s = s := by simp [framePhase, h]

end Sys2Proof.Machine
end

