-- ==== Sys2Proof/Tests/Slice0.lean ====
section
/-! SUPPORT. Tests. Expected results are those of spec/95_test_vectors.md, named in each docstring by their ids there (X, T-…),
or the encodings of spec/30_encoding.md R54 written out. Each runs one step. The last section shows, for every obligation with
hypotheses, a state and operands that meet them. -/

namespace Sys2Proof.Tests

open Sys2Proof Sys2Proof.Config Sys2Proof.Machine
open Sys2Proof.Config.OpKeys (conventional)

/-! ### Helpers -/

/-- The reset state with some registers set. -/
def withRegs (rs : List (Reg × Byte)) : State := rs.foldl (fun s r => s.setReg r.1 r.2) State.reset

/-- A state with I set. -/
def withI (s : State) (a : Word) : State := s.setI a

/-- A state with bytes stored from an address on. -/
def withBytes (s : State) (a : Nat) (bs : List Byte) : State := s.storeBytes a bs

/-- A state with SP set. -/
def withSp (s : State) (n : Fin 17) : State := { s with sp := n }

/-- A state with one key down and held. -/
def withKey (s : State) (k : Nibble) : State := s.keyEvent k .pressed

/-- The state after one step, if there is one. -/
def after (s : State) : Option State :=
  match step s with
  | .next t => some t
  | .fault _ => none
  | .refused _ => none

/-- What is seen after one step that runs this word. -/
def see {α : Type} (op : Nat) (s : State) (f : State → α) : Option α := (after (s.withFetchWord 16 op)).map f

/-- The cells that are on, by linear index, among those below a bound. -/
def lit (bound : Nat) (s : State) : List Nat := (List.range bound).filter s.fb.cell

/-! ### WellFormed: an ill-formed term for each check -/

theorem test_wellFormed_refuses_nnn : ({ nnn := 4096 } : RawFields).wellFormed = false := by decide
theorem test_wellFormed_refuses_n : ({ n := 16 } : RawFields).wellFormed = false := by decide
theorem test_wellFormed_refuses_x : ({ x := 16 } : RawFields).wellFormed = false := by decide
theorem test_wellFormed_refuses_y : ({ y := 16 } : RawFields).wellFormed = false := by decide
theorem test_wellFormed_refuses_kk : ({ kk := 256 } : RawFields).toFields = none := by decide
theorem test_wellFormed_largest : ({ nnn := 4095, n := 15, x := 15, y := 15, kk := 255 } : RawFields).wellFormed = true := by
  decide

/-! ### Decode: every constructor, by words written out from R54 -/

theorem test_decode_control : [0x00E0, 0x00EE, 0x1ABC, 0x2ABC, 0x3A9E, 0x4A9E, 0x5120, 0x9AB0, 0xBFFF].map (decodeTableWord 16) =
    [some .cls, some .ret, some (.jp 0xABC), some (.call 0xABC), some (.seKk 10 0x9E), some (.sneKk 10 0x9E),
      some (.seXy 1 2), some (.sneXy 10 11), some (.jpV0 0xFFF)] := by decide
theorem test_decode_alu : [0x6A05, 0x7A05, 0x8AB0, 0x8AB1, 0x8AB2, 0x8AB3, 0x8AB4, 0x8AB5, 0x8AB6].map (decodeTableWord 16) =
    [some (.ldKk 10 5), some (.addKk 10 5), some (.ldXy 10 11), some (.orXy 10 11), some (.andXy 10 11), some (.xorXy 10 11),
      some (.addXy 10 11), some (.subXy 10 11), some (.shr 10)] := by decide
theorem test_decode_alu_2 : [0x8AB7, 0x8ABE, 0xC30F].map (decodeTableWord 16) =
    [some (.subnXy 10 11), some (.shl 10), some (.rnd 3 0x0F)] := by decide
theorem test_decode_index : [0xA123, 0xF11E, 0xF129, 0xF233, 0xF255, 0xF065].map (decodeTableWord 16) =
    [some (.ldI 0x123), some (.addIX 1), some (.ldFX 1), some (.ldBX 2), some (.storeX 2), some (.loadX 0)] := by decide
theorem test_decode_io : [0xD015, 0xE29E, 0xE2A1, 0xF107, 0xF20A, 0xF315, 0xF418].map (decodeTableWord 16) =
    [some (.drw 0 1 5), some (.skp 2), some (.sknp 2), some (.ldXDt 1), some (.ldXK 2), some (.ldDtX 3), some (.ldStX 4)] := by
  decide
/-- T-DEC-3, 4, 5, 8, 10, 13, 19. -/
theorem test_decode_refuses : [0x00E1, 0x0000, 0x01E0, 0xE29F, 0x8AB8, 0x5121, 0xFF66].map (decodeTableWord 16) =
    [none, none, none, none, none, none, none] := by decide
/-- Fewer than two bytes hold no word (R50). -/
theorem test_decode_truncated : decode conventional [0x00] = .error .truncated := rfl
/-- The encoder writes 0 in the y field SHR ignores (R56). -/
theorem test_encode_words : [encode conventional .cls, encode conventional (.drw 0 1 5), encode conventional (.shr 10), encode conventional (.ldXK 2)] =
    [[0x00, 0xE0], [0xD0, 0x15], [0x8A, 0x06], [0xF2, 0x0A]] := by decide
theorem test_render : (lookup conventional 0x603F).map render = some "LD 0 3f" := by decide

/-! ### Control flow -/

/-- T-CF-1. -/
theorem test_jp : see 0x1ABC .reset (·.pc) = some 0x0ABC := by decide
/-- T-CF-4. -/
theorem test_call : see 0x2ABC .reset (fun t => (t.pc, t.sp, t.stack[0])) = some (0x0ABC, 1, 0x0202) := by decide
/-- T-CF-5. -/
theorem test_call_overflow : see 0x2ABC (withSp .reset 16) (fun t => (t.pc, t.sp, t.out.fault)) =
    some (0x0202, 16, some (.stackOverflow 0x0200 0x0202)) := by decide
/-- T-CF-7. -/
theorem test_ret : see 0x00EE { withSp .reset 1 with stack := State.reset.stack.set 0 0x0ABC } (fun t => (t.pc, t.sp, t.stack[0])) =
    some (0x0ABC, 0, 0x0ABC) := by decide
/-- T-CF-8. -/
theorem test_ret_underflow : see 0x00EE .reset (fun t => (t.pc, t.sp, t.out.fault)) =
    some (0x0202, 0, some (.stackUnderflow 0x0200)) := by decide
/-- T-CF-9, T-CF-10. -/
theorem test_seKk : (see 0x3000 .reset (·.pc), see 0x3000 (withRegs [(0, 1)]) (·.pc)) = (some 0x0204, some 0x0202) := by decide
/-- T-CF-11, T-CF-12. -/
theorem test_sneKk : (see 0x4311 (withRegs [(3, 0x10)]) (·.pc), see 0x4310 (withRegs [(3, 0x10)]) (·.pc)) =
    (some 0x0204, some 0x0202) := by decide
/-- T-CF-13, T-CF-14. -/
theorem test_seXy : (see 0x5120 (withRegs [(1, 7), (2, 7)]) (·.pc), see 0x5120 (withRegs [(1, 7), (2, 8)]) (·.pc)) =
    (some 0x0204, some 0x0202) := by decide
/-- T-CF-16, T-CF-17. -/
theorem test_sneXy : (see 0x9120 (withRegs [(1, 7), (2, 8)]) (·.pc), see 0x9110 (withRegs [(1, 7)]) (·.pc)) =
    (some 0x0204, some 0x0202) := by decide
/-- T-CF-18. -/
theorem test_jpV0 : see 0xB300 (withRegs [(0, 4)]) (·.pc) = some 0x0304 := by decide
/-- T-CF-19: not reduced to 12 bits. -/
theorem test_jpV0_beyond : see 0xBFFF (withRegs [(0, 0xFF)]) (·.pc) = some 0x10FE := by decide

/-! ### Register ALU: what is seen is (Vx, VF) -/

/-- T-ALU-2. -/
theorem test_ldKk : see 0x6FFF .reset (·.reg 15) = some 0xFF := by decide
/-- T-ALU-3. -/
theorem test_addKk : see 0x70FF (withRegs [(0, 5)]) (fun t => (t.reg 0, t.reg 15)) = some (4, 0) := by decide
/-- T-ALU-6. -/
theorem test_ldXy : see 0x8EF0 (withRegs [(15, 1)]) (·.reg 14) = some 1 := by decide
/-- T-ALU-7. -/
theorem test_orXy : see 0x8121 (withRegs [(1, 0xF0), (2, 0x0F)]) (fun t => (t.reg 1, t.reg 15)) = some (0xFF, 0) := by decide
/-- T-ALU-8. -/
theorem test_andXy : see 0x8122 (withRegs [(1, 0xF0), (2, 0x3C)]) (·.reg 1) = some 0x30 := by decide
/-- T-ALU-9. -/
theorem test_xorXy : see 0x8123 (withRegs [(1, 0xF0), (2, 0x3C)]) (·.reg 1) = some 0xCC := by decide
/-- X2, X10: 300 mod 256, not mod 255. -/
theorem test_addXy : see 0x8014 (withRegs [(0, 200), (1, 100)]) (fun t => (t.reg 0, t.reg 15)) = some (44, 1) := by decide
/-- T-ALU-15, T-ALU-16: VF as destination, and as source. -/
theorem test_addXy_vf : (see 0x8F14 (withRegs [(15, 200), (1, 100)]) (·.reg 15),
    see 0x81F4 (withRegs [(1, 255), (15, 1)]) (fun t => (t.reg 1, t.reg 15))) = (some 44, some (0, 1)) := by decide
/-- X3. -/
theorem test_subXy : see 0x8015 (withRegs [(0, 5), (1, 10)]) (fun t => (t.reg 0, t.reg 15)) = some (251, 0) := by decide
/-- T-ALU-17, T-ALU-19. -/
theorem test_subXy_corners : (see 0x8015 (withRegs [(0, 7), (1, 7)]) (fun t => (t.reg 0, t.reg 15)),
    see 0x81F5 (withRegs [(1, 3), (15, 5)]) (fun t => (t.reg 1, t.reg 15))) = (some (0, 0), some (0xFE, 0)) := by decide
/-- T-ALU-20. -/
theorem test_shr : see 0x8126 (withRegs [(1, 4), (2, 0xFF)]) (fun t => (t.reg 1, t.reg 2, t.reg 15)) = some (2, 0xFF, 0) := by
  decide
/-- X4, T-ALU-22. -/
theorem test_shr_out : (see 0x8006 (withRegs [(0, 3)]) (fun t => (t.reg 0, t.reg 15)), see 0x8F06 (withRegs [(15, 3)]) (·.reg 15)) =
    (some (1, 1), some 1) := by decide
/-- T-ALU-23. -/
theorem test_subnXy : see 0x8017 (withRegs [(0, 5), (1, 10)]) (fun t => (t.reg 0, t.reg 15)) = some (5, 1) := by decide
/-- T-ALU-24, T-ALU-26. -/
theorem test_subnXy_corners : (see 0x8017 (withRegs [(0, 10), (1, 5)]) (fun t => (t.reg 0, t.reg 15)),
    see 0x8F17 (withRegs [(15, 5), (1, 3)]) (·.reg 15)) = (some (251, 0), some 0xFE) := by decide
/-- X5. -/
theorem test_shl : see 0x800E (withRegs [(0, 0xC0)]) (fun t => (t.reg 0, t.reg 15)) = some (0x80, 1) := by decide
/-- T-ALU-28, T-ALU-29. -/
theorem test_shl_out : (see 0x800E (withRegs [(0, 0x7F)]) (fun t => (t.reg 0, t.reg 15)),
    see 0x8F0E (withRegs [(15, 0x81)]) (·.reg 15)) = (some (0xFE, 0), some 2) := by decide
/-- T-ALU-30: the byte drawn is 0xA7. -/
theorem test_rnd : (rndWith 0xA7 3 0x0F State.reset).reg 3 = 7 := by decide
/-- T-ALU-31: whatever byte is drawn. -/
theorem test_rnd_mask0 (r : Byte) : (rndWith r 3 0 (withRegs [(3, 9)])).reg 3 = 0 := BitVec.and_zero

/-! ### Index register and memory -/

/-- T-MEM-1. -/
theorem test_ldI : see 0xA300 .reset (·.i) = some 0x0300 := by decide
/-- T-MEM-2, T-MEM-3. -/
theorem test_addIX : (see 0xF11E (withI (withRegs [(1, 2)]) 0x0FFF) (·.i), see 0xF11E (withI (withRegs [(1, 2)]) 0xFFFF) (·.i)) =
    (some 0x1001, some 0x0001) := by decide
/-- T-MEM-4, T-MEM-6. -/
theorem test_ldFX : (see 0xF029 (withRegs [(0, 0x0A)]) (·.i), see 0xF029 (withRegs [(0, 0xFF)]) (·.i)) = (some 50, some 1275) := by
  decide
/-- T-MEM-7. -/
theorem test_ldBX : see 0xF233 (withI (withRegs [(2, 254)]) 0x300) (fun t => (t.bytes 0x300 3, t.i)) =
    some ([2, 5, 4], 0x300) := by decide
/-- The range check of LD B (R123, R38): nothing is stored when the last byte does not fit. -/
theorem test_ldBX_range : see 0xF233 (withI (withRegs [(2, 254)]) 4094) (fun t => (t.byte 4094, t.out.fault)) =
    some (0, some (.addressRange .data 4096)) := by decide
/-- T-MEM-12. -/
theorem test_storeX : see 0xFF55 (withI (withRegs [(0, 1), (15, 9)]) 4080) (fun t => (t.bytes 4080 16, t.out.fault)) =
    some ([1, 0, 0, 0, 0, 0, 0, 0, 0, 0, 0, 0, 0, 0, 0, 9], none) := by decide
/-- T-MEM-13. -/
theorem test_storeX_range : see 0xFF55 (withI (withRegs [(0, 1), (15, 9)]) 4081) (fun t => (t.byte 4081, t.out.fault)) =
    some (0, some (.addressRange .data 4096)) := by decide
/-- T-MEM-14. -/
theorem test_loadX : see 0xF265 (withI (withBytes (withRegs [(3, 0x77)]) 0x300 [2, 5, 4]) 0x300)
    (fun t => (t.reg 0, t.reg 1, t.reg 2, t.reg 3)) = some (2, 5, 4, 0x77) := by decide
/-- T-MEM-16. -/
theorem test_loadX_range : see 0xF165 (withI (withBytes (withRegs [(0, 3), (1, 4)]) 4095 [0x5A]) 4095)
    (fun t => (t.reg 0, t.reg 1, t.out.fault)) = some (3, 4, some (.addressRange .data 4096)) := by decide

/-! ### Display -/

/-- T-DRW-12. -/
theorem test_cls : see 0x00E0 { withRegs [(15, 1)] with fb := State.reset.fb.toggle 5 } (fun t => (lit 8 t, t.reg 15, t.out.frame.isSome)) =
    some ([], 1, true) := by decide
/-- T-DRW-1. -/
theorem test_drw_glyph : see 0xD005 .reset (fun t => (lit 320 t, t.reg 15)) =
    some ([0, 1, 2, 3, 64, 67, 128, 131, 192, 195, 256, 257, 258, 259], 0) := by decide
/-- T-DRW-10: the origin uses the old VF. -/
theorem test_drw_vf : see 0xDF11 (withI (withBytes (withRegs [(15, 5), (1, 2)]) 0x300 [0x80]) 0x300)
    (fun t => (t.fb.cell (5 + 64 * 2), t.reg 15)) = some (true, 0) := by decide
/-- T-DRW-5 in the two wrap modes. -/
theorem test_wrap_modes : (pixelIndex .full (200 + 7) 100, pixelIndex .singleStep 200 100) = (15 + 64 * 4, 4488) := by decide

/-! ### Keypad and timers -/

/-- T-KEY-1, T-KEY-4: key 0x17 does not exist. -/
theorem test_skp : (see 0xE29E (withKey (withRegs [(2, 7)]) 7) (·.pc), see 0xE09E (withKey (withRegs [(0, 0x17)]) 7) (·.pc)) =
    (some 0x0204, some 0x0202) := by decide
/-- T-KEY-3, T-KEY-5. -/
theorem test_sknp : (see 0xE2A1 (withRegs [(2, 7)]) (·.pc), see 0xE0A1 (withKey (withRegs [(0, 0x17)]) 7) (·.pc)) =
    (some 0x0204, some 0x0204) := by decide
/-- T-KEY-9. -/
theorem test_ldXDt : see 0xF107 (State.reset.setDt 2) (fun t => (t.reg 1, t.dt)) = some (2, 1) := by decide
/-- T-KEY-11. -/
theorem test_ldDtX : see 0xF015 (withRegs [(0, 3)]) (·.dt) = some 2 := by decide
/-- T-KEY-13, T-KEY-14. -/
theorem test_ldStX : (see 0xF018 (withRegs [(0, 3)]) (fun t => (t.st, t.out.tone)), see 0xF018 (withRegs [(0, 1)]) (fun t => (t.st, t.out.tone))) =
    (some (2, true), some (0, false)) := by decide
/-- T-KEY-17. -/
theorem test_ldXK : see 0xF20A ((withKey .reset 5).setDt 9) (fun t => (t.mode, t.waitX, t.reg 2, t.pc, t.dt)) =
    some (.waitingForKey, 2, 0, 0x0202, 8) := by decide
/-- T-KEY-19. -/
theorem test_wait_wakes : (after { withKey (withRegs [(15, 3)]) 0 with mode := .waitingForKey, waitX := 15 }).map (fun t => (t.reg 15, t.mode)) =
    some (0, .running) := by decide
/-- T-KEY-7, T-KEY-8. -/
theorem test_keyEvent :
    let s := withKey (withKey .reset 3) 7
    ((s.keyEvent 7 .released).keys[3], (s.keyEvent 7 .released).keys[7], (s.keyEvent 7 .released).held) = (true, false, none) ∧
    ((s.keyEvent 3 .released).keys[7], (s.keyEvent 3 .released).held) = (true, some 7) := by decide

/-! ### Faults, fetch, reset, load -/

/-- T-FLT-1. -/
theorem test_undecodable : see 0x8AB8 (State.reset.setDt 4) (fun t => (t.pc, t.dt, t.out.fault, t.out.trace)) =
    some (0x0202, 3, some (.decodeFault 0x0200 0x8AB8), some ⟨0x0200, .invalidOpcode 0x8AB8⟩) := by decide
/-- T-FLT-2, T-FLT-5. -/
theorem test_fetch_range : ((after (State.reset.setPc 0x0FFF)).map (fun t => (t.pc, t.out.fault)), (after (State.reset.setPc 0xFFFF)).map (·.pc)) =
    (some (0x1001, some (.addressRange .fetch 0x0FFF)), some 0x0001) := by decide
/-- T-FLT-3, T-FLT-4. -/
theorem test_fetch_last_and_odd :
    ((after (withBytes (State.reset.setPc 0x0FFE) 0xFFE [0x60, 0x07])).map (fun t => (t.reg 0, t.pc)),
      (after (withBytes (State.reset.setPc 0x0201) 0x201 [0x60, 0x07])).map (fun t => (t.reg 0, t.pc))) =
    (some (7, 0x1000), some (7, 0x0203)) := by decide
/-- T-FLT-8, the fields most at risk. -/
theorem test_hostReset :
    let t := ({ withKey (withBytes (withRegs [(3, 9)]) 3 [0]) 4 with mode := .waitingForKey } : State).hostReset
    (t.reg 3, t.byte 3, t.mode, t.pc) = (0, 0x90, .running, 0x0200) ∧ (t.keys[4], t.held) = (true, some 4) := by decide
/-- T-FLT-10. -/
theorem test_inspect : State.reset.inspect 1 = 0x90 := by decide
/-- Writing the reset contents removes the entry (the canonical form). -/
theorem test_memory_canonical : Memory.write defaultFont (Memory.write defaultFont [] 1 7) 1 0x90 = [] := by decide

/-! ### Witnesses: states and operands that meet the hypotheses of each obligation -/

/-- A state that meets the invariant and is not the reset state. -/
def sample : State := { withKey (withBytes (withRegs [(2, 7)]) 512 [0xE2, 0x9E]) 7 with loadLen := 2 }

/-- A machine with the one-step wrap, about to draw at (200, 100) a row that is 0x81 (T-DRW-5). -/
def oneStep : State :=
  let s := withI (withBytes (withRegs [(0, 200), (1, 100)]) 0x300 [0x81]) 0x300
  { s with cfg := { s.cfg with wrapMode := .singleStep } }

theorem sample_inv : sample.Inv where
  mem := by decide
  redraw := rfl
  held := by intro k hk; cases hk; decide
  loadLen := by decide
  tone := rfl

/-- That a state steps to a next state. -/
theorem steps_to {s t : State} (h : after s = some t) : step s = .next t := by
  unfold after at h
  split at h
  · cases h; assumption
  all_goals cases h

/-- Another choice of `OPKEYS`: JP and CALL have each other's key. -/
def swapped : OpKeys := { conventional with jp := 0x2000, call := 0x1000 }

/-- The keys of R54 meet the premise of the statements about any `OPKEYS`, and so do other keys: these have JP and CALL
exchanged. -/
theorem witness_keys_wellFormed : conventional.wellFormed = true ∧ swapped.wellFormed = true ∧ swapped ≠ conventional := by decide
theorem witness_DecodedWordIsTheEncoding : lookup conventional 0x8AB6 = some (.shr 10) ∧ lookup conventional 0x8ABE = some (.shl 10) ∧
    lookup conventional 0xD015 = some (.drw 0 1 5) := by decide
theorem witness_NoWordMatchesAtTwoTiers : lookupTier mask1 (tier1 conventional) 0x00E0 ≠ none ∧ lookupTier mask2 (tier2 conventional) 0xF20A ≠ none ∧
    lookupTier mask3 (tier3 conventional) 0x8AB4 ≠ none := by decide
theorem witness_ResetLeavesTheTableOfValues : (∃ c : Params, State.reset = State.resetWith c) ∧
    (∃ u : State, sample.hostReset = u.hostReset) ∧ sample.hostReset ≠ State.reset :=
  ⟨⟨_, rfl⟩, ⟨sample, rfl⟩, by decide⟩
theorem witness_StepKeepsTheInvariant : ∃ s t : State, s.Inv ∧ step s = .next t ∧ t ≠ s :=
  ⟨sample, _, sample_inv, rfl, by decide⟩
/-- The normative mode; a step that is refused in the other; and a run that completes from a state that meets the
invariant. -/
theorem witness_StepNeverStops : State.reset.cfg.wrapMode = .full ∧ step (oneStep.withFetchWord 16 0xD011) = .refused .pixelOutsideFramebuffer :=
  ⟨rfl, rfl⟩
theorem witness_HostRunsNeverStopAndKeepTheInvariant : sample.cfg.wrapMode = .full ∧
    ∃ t rs, sample.performAll [.inspect 0, .step] = .next (t, rs) ∧ sample.Inv ∧ t ≠ sample :=
  ⟨rfl, _, _, rfl, sample_inv, by decide⟩
theorem witness_StepRunsTheDecodedInstruction : sample.mode = .running ∧ sample.pc.toNat + 1 < 4096 ∧
    decode sample.cfg.opKeys [sample.byte sample.pc.toNat, sample.byte (sample.pc.toNat + 1)] = .ok (.skp 2, []) :=
  ⟨rfl, by decide, rfl⟩
theorem witness_UndecodableWordIsSkipped : State.reset.mode = .running ∧ State.reset.redraw = false ∧
    fetch State.reset = .ok 0x0000 ∧ lookup State.reset.cfg.opKeys 0x0000 = none := ⟨rfl, rfl, rfl, by decide⟩
theorem witness_FetchReadsTwoBytesOrFaults : (State.reset.setPc 4094).pc.toNat ≤ 4094 ∧
    (4094 < (State.reset.setPc 4095).pc.toNat ∧ (State.reset.setPc 4095).mode = .running ∧
      (State.reset.setPc 4095).redraw = false) := by decide
/-- One state for each clause: a wait, a timer written, a timer not written. -/
theorem witness_TimersTickOncePerRunningStep :
    (∃ s t : State, step s = .next t ∧ s.mode = .waitingForKey) ∧
    (∃ s t : State, step s = .next t ∧ s.mode = .running ∧ fetched s = some (.ldDtX 3)) ∧
    (∃ s t : State, step s = .next t ∧ s.mode = .running ∧ fetched s = some (.ldStX 3)) ∧
    (∃ s t : State, step s = .next t ∧ s.mode = .running ∧ fetched s = some .cls) :=
  ⟨⟨{ sample with mode := .waitingForKey }, _, rfl, rfl⟩,
    ⟨State.reset.withFetchWord 16 0xF315, _, rfl, by decide, by decide⟩,
    ⟨State.reset.withFetchWord 16 0xF318, _, rfl, by decide, by decide⟩,
    ⟨State.reset.withFetchWord 16 0x00E0, _, rfl, by decide, by decide⟩⟩
theorem witness_FrameIsEmittedByClsAndDrwOnly : ∃ s t : State, s.redraw = false ∧ step s = .next t ∧ t.out.frame ≠ none :=
  ⟨State.reset.withFetchWord 16 0x00E0, _, rfl, rfl, by decide⟩
theorem witness_OnlyKeyWaitChangesTheMode :
    (∃ s t : State, step s = .next t ∧ s.mode = .running ∧ fetched s = some (.ldXK 2)) ∧
    (∃ s t : State, step s = .next t ∧ s.mode = .waitingForKey ∧ s.held ≠ none) :=
  ⟨⟨State.reset.withFetchWord 16 0xF20A, _, rfl, by decide, by decide⟩,
    ⟨{ sample with mode := .waitingForKey }, _, rfl, rfl, by decide⟩⟩
theorem witness_WaitingStepPollsTheHeldKey :
    (∃ s : State, s.mode = .waitingForKey ∧ s.held = none) ∧ (∃ s : State, s.mode = .waitingForKey ∧ s.held = some 7) :=
  ⟨⟨{ State.reset with mode := .waitingForKey }, rfl, rfl⟩, ⟨{ sample with mode := .waitingForKey }, rfl, rfl⟩⟩
theorem witness_KeyWaitEndsWithTheKeyPressed :
    let s := State.reset.withFetchWord 16 0xFF0A
    s.mode = .running ∧ s.held = none ∧ fetched s = some (.ldXK 15) := by decide
theorem witness_SelfJumpIsAFixedPoint :
    let s := State.reset.withFetchWord 16 0x1200
    s.mode = .running ∧ s.redraw = false ∧ s.pc.toNat = (0x200 : Addr).toNat ∧ fetched s = some (.jp 0x200) ∧ s.dt = 0 ∧
      s.st = 0 := by decide
/-- The first disjunct by a step that decodes nothing (PC at the last value) and by CLS; the second by a CALL that faults. -/
theorem witness_PcAdvancesByTwoUnlessTransferred :
    (∃ s t : State, s.mode = .running ∧ step s = .next t ∧ fetched s = none ∧ s.pc = 0xFFFF) ∧
    (∃ s t : State, s.mode = .running ∧ step s = .next t ∧ fetched s = some .cls) ∧
    (∃ s t : State, s.mode = .running ∧ step s = .next t ∧ fetched s = some (.call 0xABC) ∧ t.out.fault ≠ none) :=
  ⟨⟨State.reset.setPc 0xFFFF, _, rfl, rfl, by decide, rfl⟩,
    ⟨State.reset.withFetchWord 16 0x00E0, _, rfl, rfl, by decide⟩,
    ⟨(withSp .reset 16).withFetchWord 16 0x2ABC, _, rfl, rfl, by decide, by decide⟩⟩
/-- One for each cause. -/
theorem witness_FaultsKeepNoWriteAndHaveTheirCauses :
    (∃ t, exec (.call 1) (withSp .reset 16) = .next t ∧ t.out.fault ≠ none) ∧
    (∃ t, exec .ret .reset = .next t ∧ t.out.fault ≠ none) ∧
    (∃ t, exec (.ldBX 0) (withI .reset 4094) = .next t ∧ t.out.fault ≠ none) ∧
    (∃ t, exec (.storeX 15) (withI .reset 4081) = .next t ∧ t.out.fault ≠ none) ∧
    (∃ t, exec (.loadX 15) (withI .reset 4081) = .next t ∧ t.out.fault ≠ none) ∧
    (∃ t, exec (.drw 0 1 1) (withI .reset 4096) = .next t ∧ t.out.fault ≠ none) ∧
    (∃ t, exec (.drw 0 1 0) (withI .reset 4096) = .next t ∧ t.out.fault = none) ∧ State.reset.out.fault = none :=
  ⟨⟨_, rfl, by decide⟩, ⟨_, rfl, by decide⟩, ⟨_, rfl, by decide⟩, ⟨_, rfl, by decide⟩, ⟨_, rfl, by decide⟩, ⟨_, rfl, by decide⟩,
    ⟨_, rfl, by decide⟩, rfl⟩
theorem witness_EachPieceHasItsWriters :
    (∃ t, exec (.storeX 0) (withI (withRegs [(0, 1)]) 4095) = .next t ∧ ∃ a, t.byte a ≠ State.reset.byte a) ∧
    (∃ t, exec (.drw 0 1 5) .reset = .next t ∧ (∃ k, t.fb.cell k ≠ State.reset.fb.cell k) ∧ t.redraw ≠ State.reset.redraw) ∧
    (∃ t, exec (.call 1) .reset = .next t ∧ t.sp ≠ State.reset.sp ∧ t.stack ≠ State.reset.stack) ∧
    (∃ t, exec (.ldI 1) .reset = .next t ∧ t.i ≠ State.reset.i) ∧
    (∃ t, exec (.ldDtX 2) sample = .next t ∧ t.dt ≠ sample.dt) ∧ (∃ t, exec (.ldStX 2) sample = .next t ∧ t.st ≠ sample.st) ∧
    (∃ t, exec (.ldXK 2) .reset = .next t ∧ t.mode ≠ State.reset.mode) ∧
    (∃ t, exec (.rnd 2 3) .reset = .next t ∧ t.rndIndex ≠ State.reset.rndIndex) ∧
    (∃ t, exec (.ldKk 15 3) .reset = .next t ∧ t.reg 15 ≠ State.reset.reg 15) ∧
    (∃ t, exec (.jp 1) .reset = .next t ∧ t.pc ≠ State.reset.pc) ∧
    (∃ t, exec (.loadX 14) .reset = .next t ∧ t.reg 14 ≠ State.reset.reg 14) :=
  ⟨⟨_, rfl, 4095, by decide⟩, ⟨_, rfl, ⟨0, by decide⟩, by decide⟩, ⟨_, rfl, by decide, by decide⟩, ⟨_, rfl, by decide⟩,
    ⟨_, rfl, by decide⟩, ⟨_, rfl, by decide⟩, ⟨_, rfl, by decide⟩, ⟨_, rfl, by decide⟩, ⟨_, rfl, by decide⟩,
    ⟨_, rfl, by decide⟩, ⟨_, rfl, by decide⟩⟩
theorem witness_CallPushesTheReturnAddress : (withSp .reset 15).sp.val < 16 ∧ (withSp .reset 16).sp.val = 16 := by decide
theorem witness_ReturnPopsIntoPc : (withSp .reset 1).sp.val = 0 + 1 ∧ (withSp .reset 16).sp.val = 15 + 1 ∧
    (withSp .reset 0).sp.val = 0 := by decide
theorem witness_CallThenReturnComesBack : (withSp .reset 15).sp.val < 16 := by decide
/-- For AddRegistersSetsCarry, SubtractionsSetGreater and ShiftsSetTheBitShiftedOut. -/
theorem witness_flag_register_spared : (14 : Reg) ≠ 15 := by decide
/-- LD B at the last address that fits and the first that does not. -/
theorem witness_DecimalDigitsAreStored : dataAddr (withI .reset 4093) 2 ≤ 4095 ∧ 4095 < dataAddr (withI .reset 4094) 2 := by decide
/-- LD [I],x and LD x,[I] likewise. -/
theorem witness_BlockStore_and_BlockLoad : dataAddr (withI .reset 4080) (15 : Reg).toNat ≤ 4095 ∧
    4095 < dataAddr (withI .reset 4081) (15 : Reg).toNat ∧ (15 : Reg).toNat ≤ (15 : Reg).toNat := by decide
theorem witness_BlockStoreThenLoadRestores : dataAddr (withI .reset 4080) (15 : Reg).toNat ≤ 4095 := by decide
theorem witness_StoredBytesAreFetched :
    let s := (withI .reset 4094).setPc 4094
    1 ≤ (1 : Reg).toNat ∧ dataAddr s 0 = s.pc.toNat ∧ dataAddr s (1 : Reg).toNat ≤ 4095 := by decide
theorem witness_ClearScreen : (State.reset.withFetchWord 16 0x00E0).mode = .running ∧
    fetched (State.reset.withFetchWord 16 0x00E0) = some .cls := by decide
/-- DRW: no rows, the last address that fits, the first that does not. -/
theorem witness_DrawInvertsTheSpritesCells : State.reset.cfg.wrapMode = .full ∧ (0 : Nibble) = 0 ∧ dataAddr (withI .reset 4081) ((15 : Nibble).toNat - 1) ≤ 4095 ∧
    ((15 : Nibble) ≠ 0 ∧ 4095 < dataAddr (withI .reset 4082) ((15 : Nibble).toNat - 1)) := by decide
theorem witness_DrawingTwiceRestoresTheFramebuffer : State.reset.cfg.wrapMode = .full ∧
    dataAddr State.reset ((5 : Nibble).toNat - 1) ≤ 4095 ∧
    ∀ k, State.reset.fb.cell k = false := by
  refine ⟨rfl, by decide, fun k => ?_⟩
  simp [Framebuffer.cell, State.reset, State.resetWith]
theorem witness_WrapModesAgreeNearTheScreen :
    let s := withRegs [(0, 120), (1, 49)]
    (s.reg 0).toNat ≤ 120 ∧ (s.reg 1).toNat + (15 : Nibble).toNat ≤ 64 := by decide
/-- In range, with a pixel beyond the cells (T-DRW-5). -/
theorem witness_OneStepWrapRefusesBeyondTheCells : oneStep.cfg.wrapMode = .singleStep ∧
    dataAddr oneStep ((1 : Nibble).toNat - 1) ≤ 4095 ∧ exec (.drw 0 1 1) oneStep = .refused .pixelOutsideFramebuffer :=
  ⟨rfl, by decide, rfl⟩
/-- In range, with every pixel a cell: the sprite at (0, 0). -/
theorem witness_OneStepWrapDrawsWithinTheCells : oneStep.cfg.wrapMode = .singleStep ∧
    dataAddr oneStep ((1 : Nibble).toNat - 1) ≤ 4095 ∧ ∀ k, LitOnce oneStep 2 2 1 k → k ≤ 2047 := by
  refine ⟨rfl, by decide, ?_⟩
  rintro k ⟨row, hr, col, hc, _, rfl⟩
  have : (oneStep.reg 2).toNat = 0 := by decide
  have hr : row < 1 := hr
  simp only [this, wrapOnce]
  split <;> split <;> omega
/-- T-DRW-4: the two wrap modes draw different cells. -/
theorem test_wrap_modes_differ :
    let s := withI (withBytes (withRegs [(0, 130)]) 0x300 [0x80]) 0x300
    (see 0xD011 s (lit 80), see 0xD011 { s with cfg := { s.cfg with wrapMode := .singleStep } } (lit 80)) =
      (some [2], some [66]) := by decide
theorem witness_KeySkips : KeyIsDown sample (sample.reg 2) ∧ ¬ KeyIsDown sample (sample.reg 0) ∧
    ¬ KeyIsDown (withKey (withRegs [(0, 16)]) 0) 16 := by
  refine ⟨⟨7, by decide, by decide⟩, ?_, ?_⟩
  · rintro ⟨k, h, h'⟩; revert h h'; revert k; decide
  · rintro ⟨k, h, _⟩; revert h; revert k; decide
theorem witness_LoadLengthIsRecordedAndNeverRead : (∃ t, sample.perform (.load [1]) = .next (t, .done)) ∧
    (∃ t, step sample = .next t) ∧ ∃ r, step (oneStep.withFetchWord 16 0xD011) = .refused r := ⟨⟨_, rfl⟩, ⟨_, rfl⟩, ⟨_, rfl⟩⟩
theorem witness_LoadWritesTheProgram : 512 + (List.replicate 3584 (7 : Byte)).length ≤ 4096 := by
  rw [List.length_replicate]
theorem witness_LoadErrorChangesNothing : 4096 < 512 + (List.replicate 3585 (7 : Byte)).length := by
  rw [List.length_replicate]; decide

end Sys2Proof.Tests
end

/-! What an instruction, a step and a host operation carry over, and the runs of host operations (R2, R70). -/

namespace Sys2Proof.Machine

open Sys2Proof

variable {s t u : State}

/-! ### What an instruction carries over -/

/-- What no instruction changes: the parameters, the key state and the recorded length; of memory, that its canonical form is
kept. The clauses of State.Inv the closing phases of a step do not establish follow from it. -/
structure State.Carries (s t : State) : Prop where
  cfg : t.cfg = s.cfg
  keys : t.keys = s.keys
  held : t.held = s.held
  loadLen : t.loadLen = s.loadLen
  mem : Memory.wf s.cfg.font s.mem → Memory.wf t.cfg.font t.mem

/-- A result that is a next state which carries over what `s` has. -/
def Continues (s : State) (r : Result) : Prop := ∃ t, r = .next t ∧ s.Carries t

theorem State.Carries.trans (h : s.Carries t) (h' : t.Carries u) : s.Carries u :=
  ⟨h'.cfg.trans h.cfg, h'.keys.trans h.keys, h'.held.trans h.held, h'.loadLen.trans h.loadLen, h'.mem ∘ h.mem⟩

/-- An update of any other field carries over everything. -/
theorem State.Carries.of_eq (hcfg : t.cfg = s.cfg) (hkeys : t.keys = s.keys) (hheld : t.held = s.held)
    (hlen : t.loadLen = s.loadLen) (hmem : t.mem = s.mem) : s.Carries t :=
  ⟨hcfg, hkeys, hheld, hlen, by rw [hcfg, hmem]; exact id⟩

theorem State.carries_skipIf (s : State) (c : Bool) : s.Carries (s.skipIf c) := by
  rw [State.skipIf_eq]; exact .of_eq rfl rfl rfl rfl rfl

/-- A block store inside memory carries over everything (R40). -/
theorem State.carries_storeBytes {a : Nat} {bs : List Byte} (h : a + bs.length ≤ Config.memSize) :
    s.Carries (s.storeBytes a bs) :=
  ⟨rfl, rfl, rfl, rfl, fun hm => State.storeBytes_wf hm h⟩

theorem continues_raise (f : Fault) (s : State) : Continues s (raise f s) := ⟨_, rfl, .of_eq rfl rfl rfl rfl rfl⟩

/-- Behind the range check only the answer in range matters (R38). -/
theorem continues_guardRange {top : Nat} {r : Result} (h : top < 4096 → Continues s r) :
    Continues s (guardRange top s r) := by
  by_cases htop : top < 4096
  · rw [guardRange_inside htop]; exact h htop
  · rw [guardRange_outside htop]; exact continues_raise _ s

theorem continues_execRet (s : State) : Continues s (execRet s) := by
  by_cases hsp : 0 < s.sp.val
  · simp only [execRet, pop_occupied hsp]; exact ⟨_, rfl, .of_eq rfl rfl rfl rfl rfl⟩
  · simp only [execRet, pop_empty (Nat.eq_zero_of_not_pos hsp)]; exact continues_raise _ s

theorem continues_execCall (nnn : Addr) (s : State) : Continues s (execCall nnn s) := by
  by_cases hsp : s.sp.val < 16
  · simp only [execCall, push_free _ hsp]; exact ⟨_, rfl, .of_eq rfl rfl rfl rfl rfl⟩
  · have hfull : s.sp.val = 16 := by have := s.sp.isLt; omega
    simp only [execCall, push_full _ hfull]; exact continues_raise _ s

theorem continues_execLdBX (x : Reg) (s : State) : Continues s (execLdBX x s) :=
  continues_guardRange fun h => ⟨_, rfl, State.carries_storeBytes (by
    simp only [dataAddr, length_decimalDigits, Config.memSize] at h ⊢; omega)⟩

theorem continues_execStoreX (x : Reg) (s : State) : Continues s (execStoreX x s) :=
  continues_guardRange fun h => ⟨_, rfl, State.carries_storeBytes (by
    simp only [dataAddr, length_regsThrough, Config.memSize] at h ⊢; omega)⟩

theorem continues_execLoadX (x : Reg) (s : State) : Continues s (execLoadX x s) :=
  continues_guardRange fun _ => ⟨s.loadRegsThrough x, rfl, .of_eq (by simp) (by simp) (by simp) (by simp) (by simp)⟩

/-- The sprite of DRW x,y,n has a set bit off the cells, which only the one-step wrap allows (R135). -/
def DrawsOffCells (x y : Reg) (n : Nibble) (s : State) : Prop :=
  setPixels s.cfg.wrapMode s.fb (spritePixels (s.reg x).toNat (s.reg y).toNat (spriteRows s n)) = none

theorem not_drawsOffCells_full (hfull : s.cfg.wrapMode = .full) (x y : Reg) (n : Nibble) : ¬ DrawsOffCells x y n s := by
  obtain ⟨fb, erased, h⟩ := setPixels_full (fb := s.fb)
    (spritePixels (s.reg x).toNat (s.reg y).toNat (spriteRows s n))
  simp [DrawsOffCells, hfull, h]

/-- A blit draws, or it is refused for a pixel off the cells (R132, R135). -/
theorem blit_cases (x y : Reg) (n : Nibble) (s : State) :
    Continues s (blit s.cfg.wrapMode x y n s) ∨
    (DrawsOffCells x y n s ∧ blit s.cfg.wrapMode x y n s = .refused .pixelOutsideFramebuffer) := by
  cases h : setPixels s.cfg.wrapMode s.fb (spritePixels (s.reg x).toNat (s.reg y).toNat (spriteRows s n)) with
  | none => exact .inr ⟨h, by simp [blit, h]⟩
  | some p =>
    exact .inl ⟨(s.setReg VF (flagByte p.2)).redrawWith p.1, by simp only [blit, h], .of_eq rfl rfl rfl rfl rfl⟩

/-- DRW continues, or it is refused for a pixel off the cells (R132, R135). -/
theorem execDrw_cases (x y : Reg) (n : Nibble) (s : State) :
    Continues s (execDrw x y n s) ∨
    (DrawsOffCells x y n s ∧ execDrw x y n s = .refused .pixelOutsideFramebuffer) := by
  unfold execDrw drawSprite
  split
  · exact blit_cases x y n s
  · by_cases htop : dataAddr s (n.toNat - 1) < 4096
    · rw [guardRange_inside htop]; exact blit_cases x y n s
    · rw [guardRange_outside htop]; exact .inl (continues_raise _ s)

/-- What the execute phase can do: it answers a next state, or it is a DRW refused for a pixel off the cells (R74, R76,
R135). -/
theorem exec_cases (i : Instr) (s : State) :
    Continues s (exec i s) ∨
    ∃ x y n, i = .drw x y n ∧ DrawsOffCells x y n s ∧ exec i s = .refused .pixelOutsideFramebuffer := by
  cases i with
  | drw x y n => exact (execDrw_cases x y n s).imp_right fun h => ⟨x, y, n, rfl, h⟩
  | ret => exact .inl (continues_execRet s)
  | call nnn => exact .inl (continues_execCall nnn s)
  | ldBX x => exact .inl (continues_execLdBX x s)
  | storeX x => exact .inl (continues_execStoreX x s)
  | loadX x => exact .inl (continues_execLoadX x s)
  | seKk | sneKk | seXy | sneXy | skp | sknp => exact .inl ⟨_, rfl, s.carries_skipIf _⟩
  | cls | jp | jpV0 | ldKk | addKk | ldXy | orXy | andXy | xorXy | addXy | subXy | shr | subnXy | shl | rnd | ldI
  | ldXDt | ldXK | ldDtX | ldStX | addIX | ldFX => exact .inl ⟨_, rfl, .of_eq rfl rfl rfl rfl rfl⟩

/-! ### What a step carries over -/

/-- A state that carries over what `s` has, with no redraw it did not have and with the tone put out being the level. -/
structure State.StepsTo (s t : State) : Prop where
  carries : s.Carries t
  redraw : s.redraw = false → t.redraw = false
  tone : t.out.tone = t.tone

theorem State.StepsTo.inv (h : s.StepsTo t) (hs : s.Inv) : t.Inv where
  mem := h.carries.mem hs.mem
  redraw := h.redraw hs.redraw
  held k hk := by
    have hdown := hs.held k (h.carries.held ▸ hk)
    simpa only [State.keyDown, h.carries.keys] using hdown
  loadLen := h.carries.loadLen ▸ hs.loadLen
  tone := h.tone

/-- The closing phases end a step whose execute phase continued (R77, R78, R79). -/
theorem stepsTo_finish {b : TraceBody} {r : Result} (h : Continues (advance b s) r) :
    ∃ t, finish r = .next t ∧ s.StepsTo t := by
  obtain ⟨u, rfl, hu⟩ := h
  have hadv : s.Carries (advance b s) := .of_eq rfl rfl rfl rfl rfl
  have hclose : u.Carries (tickPhase (framePhase u)) := .of_eq (by simp) (by simp) (by simp) (by simp) (by simp)
  exact ⟨_, rfl, (hadv.trans hu).trans hclose, fun _ => by simp, rfl⟩

/-- A poll of the key state (R81). -/
theorem stepsTo_waitingStep (s : State) : s.StepsTo (waitingStep s) := by
  unfold waitingStep
  split <;> exact ⟨.of_eq rfl rfl rfl rfl rfl, id, rfl⟩

theorem runningStep_of_fetch_error {f : Fault} (h : fetch s = .error f) :
    runningStep s = finish (raise f (advance .noWord s)) := by
  simp only [runningStep, h]

theorem runningStep_of_lookup_none {op : Word} (h : fetch s = .ok op) (hi : lookup s.cfg.opKeys op = none) :
    runningStep s = finish (raise (.decodeFault s.pc op) (advance (.invalidOpcode op) s)) := by
  simp only [runningStep, h, hi]

theorem runningStep_of_lookup_some {op : Word} {i : Instr} (h : fetch s = .ok op) (hi : lookup s.cfg.opKeys op = some i) :
    runningStep s = finish (exec i (advance (.instruction op i) s)) := by
  simp only [runningStep, h, hi]

/-- A Running step ends, or it fetches a DRW that is refused for a pixel off the cells (R71, R135). -/
theorem runningStep_cases (s : State) :
    (∃ t, runningStep s = .next t ∧ s.StepsTo t) ∨
    ∃ x y n, fetched s = some (.drw x y n) ∧ DrawsOffCells x y n s ∧
      runningStep s = .refused .pixelOutsideFramebuffer := by
  cases h : fetch s with
  | error f =>
    rw [runningStep_of_fetch_error h]
    exact .inl (stepsTo_finish (continues_raise f _))
  | ok op =>
    cases hi : lookup s.cfg.opKeys op with
    | none =>
      rw [runningStep_of_lookup_none h hi]
      exact .inl (stepsTo_finish (continues_raise _ _))
    | some i =>
      rw [runningStep_of_lookup_some h hi]
      obtain hnext | ⟨x, y, n, rfl, hoff, hrefused⟩ := exec_cases i (advance (.instruction op i) s)
      · exact .inl (stepsTo_finish hnext)
      · exact .inr ⟨x, y, n, by simp only [fetched, h, hi], hoff, by rw [hrefused]; rfl⟩

/-- What a step can do, in any mode: it answers a next state, or it fetches a DRW that is refused for a pixel off the cells
(R70, R135). -/
theorem step_cases (s : State) :
    (∃ t, step s = .next t ∧ s.StepsTo t) ∨
    ∃ x y n, fetched s = some (.drw x y n) ∧ DrawsOffCells x y n s ∧ step s = .refused .pixelOutsideFramebuffer := by
  unfold step
  cases s.mode with
  | running => exact runningStep_cases s
  | waitingForKey => exact .inl ⟨_, rfl, stepsTo_waitingStep s⟩

/-! ### What the host's operations carry over -/

@[simp] theorem keyDown_zextNibble (s : State) (k : Nibble) : s.keyDown (zextNibble k) = s.keys[k.toNat] := by
  have hk : (zextNibble k).toNat = k.toNat := BitVec.toNat_setWidth_of_le (by decide)
  simp only [State.keyDown, hk, dif_pos k.isLt]

/-- The key state is one `KeyEvent`s can lead to: "`held = k` implies `keys[k]` is true" (R146). -/
theorem State.keyEvent_held (hs : ∀ k, s.held = some k → s.keyDown (zextNibble k) = true) (k : Nibble) (e : KeyAction) :
    ∀ j, (s.keyEvent k e).held = some j → (s.keyEvent k e).keyDown (zextNibble j) = true := by
  intro j hj
  cases e with
  | pressed =>
    obtain rfl : k = j := Option.some.inj hj
    simp [State.keyEvent]
  | released =>
    by_cases hk : s.held = some k
    · simp [State.keyEvent, hk] at hj
    · have hheld : s.held = some j := by simpa [State.keyEvent, hk] using hj
      have hne : k.toNat ≠ j.toNat := fun h => hk (BitVec.eq_of_toNat_eq h ▸ hheld)
      simpa [State.keyEvent, Vector.getElem_set_ne _ _ hne] using hs j hheld

theorem State.Inv.keyEvent (hs : s.Inv) (k : Nibble) (e : KeyAction) : (s.keyEvent k e).Inv where
  mem := by cases e <;> exact hs.mem
  redraw := by cases e <;> exact hs.redraw
  held := s.keyEvent_held hs.held k e
  loadLen := by cases e <;> exact hs.loadLen
  tone := by cases e <;> exact hs.tone

theorem State.keyEvent_cfg (s : State) (k : Nibble) (e : KeyAction) : (s.keyEvent k e).cfg = s.cfg := by
  cases e <;> rfl

/-- `Reset` meets every clause by its values but that of the key state, which it leaves (R170, R171). -/
theorem State.Inv.hostReset (hs : s.Inv) : s.hostReset.Inv where
  mem := Memory.wf_nil
  redraw := rfl
  held := hs.held
  loadLen := Nat.zero_le _
  tone := rfl

/-- What the host's operations keep: the parameters, and the invariant where it holds. -/
structure State.Keeps (s t : State) : Prop where
  cfg : t.cfg = s.cfg
  inv : s.Inv → t.Inv

theorem State.Keeps.trans (h : s.Keeps t) (h' : t.Keeps u) : s.Keeps u := ⟨h'.cfg.trans h.cfg, h'.inv ∘ h.inv⟩

theorem State.StepsTo.keeps (h : s.StepsTo t) : s.Keeps t := ⟨h.carries.cfg, h.inv⟩

/-- A `Load` that fits records a length of at most 3584 and stores inside memory (R22, R43). -/
theorem State.keeps_load {bs : List Byte} (h : s.load bs = .ok t) : s.Keeps t := by
  unfold State.load at h
  split at h
  next hfits =>
    cases h
    refine ⟨rfl, fun hs => ⟨State.storeBytes_wf hs.mem hfits, hs.redraw, hs.held, ?_, hs.tone⟩⟩
    simp only [Config.loadBase, Config.memSize, Config.maxLoad] at hfits ⊢; omega
  next => cases h

/-- What one operation can do, in any mode: it completes, or it is a `Step` that is refused (R2, R70). -/
theorem perform_cases (s : State) (op : HostOp) :
    (∃ t r, s.perform op = .next (t, r) ∧ s.Keeps t) ∨
    (op = .step ∧ s.perform op = .refused .pixelOutsideFramebuffer ∧ ∃ x y n, DrawsOffCells x y n s) := by
  cases op with
  | reset => exact .inl ⟨_, _, rfl, rfl, State.Inv.hostReset⟩
  | load bs =>
    cases h : s.load bs with
    | ok t => exact .inl ⟨t, .done, by simp only [State.perform, h], State.keeps_load h⟩
    | error f => exact .inl ⟨s, .error f, by simp only [State.perform, h], rfl, id⟩
  | keyEvent k e => exact .inl ⟨_, _, rfl, s.keyEvent_cfg k e, fun hs => hs.keyEvent k e⟩
  | inspect a => exact .inl ⟨_, _, rfl, rfl, id⟩
  | step =>
    obtain ⟨t, h, hst⟩ | ⟨x, y, n, -, hoff, h⟩ := step_cases s
    · exact .inl ⟨t, .output t.out, by simp only [State.perform, h], hst.keeps⟩
    · exact .inr ⟨rfl, by simp only [State.perform, h], x, y, n, hoff⟩

/-- In the full wrap mode every operation completes (R70, R131). -/
theorem perform_completes_of_full (hfull : s.cfg.wrapMode = .full) (op : HostOp) :
    ∃ t r, s.perform op = .next (t, r) ∧ s.Keeps t :=
  (perform_cases s op).resolve_right fun ⟨_, _, x, y, n, hoff⟩ => not_drawsOffCells_full hfull x y n hoff

/-- An operation that completes, in any mode, keeps the parameters and the invariant. -/
theorem perform_keeps {op : HostOp} {r : Reply} (h : s.perform op = .next (t, r)) : s.Keeps t := by
  obtain ⟨t', r', h', hkeeps⟩ | ⟨-, h', -⟩ := perform_cases s op
  · obtain ⟨rfl, rfl⟩ : t' = t ∧ r' = r := by simpa [h'] using h
    exact hkeeps
  · simp [h'] at h

/-! ### Runs of host operations -/

/-- A run completes when its first operation and the rest of it do (R2). -/
theorem performAll_cons_next_iff {op : HostOp} {ops : List HostOp} {rs : List Reply} :
    s.performAll (op :: ops) = .next (u, rs) ↔
      ∃ t r rs', s.perform op = .next (t, r) ∧ t.performAll ops = .next (u, rs') ∧ rs = r :: rs' := by
  constructor
  · intro h
    rw [State.performAll] at h
    split at h
    next t r hop =>
      split at h
      next hrest => cases h; exact ⟨t, r, _, hop, hrest, rfl⟩
      all_goals cases h
    all_goals cases h
  · rintro ⟨t, r, rs', hop, hrest, rfl⟩
    simp only [State.performAll, hop, hrest]

/-- In the full wrap mode every run completes: each operation keeps the mode. -/
theorem performAll_completes_of_full (ops : List HostOp) (hfull : s.cfg.wrapMode = .full) :
    ∃ t rs, s.performAll ops = .next (t, rs) := by
  induction ops generalizing s with
  | nil => exact ⟨s, [], rfl⟩
  | cons op ops ih =>
    obtain ⟨t, r, hop, hkeeps⟩ := perform_completes_of_full hfull op
    obtain ⟨u, rs, hrest⟩ := ih (s := t) (by rw [hkeeps.cfg, hfull])
    exact ⟨u, r :: rs, performAll_cons_next_iff.2 ⟨t, r, rs, hop, hrest, rfl⟩⟩

/-- A run that completes, in any mode, has replied to each operation and keeps what each of them keeps. -/
theorem performAll_keeps {ops : List HostOp} {rs : List Reply} (h : s.performAll ops = .next (t, rs)) :
    rs.length = ops.length ∧ s.Keeps t := by
  induction ops generalizing s rs with
  | nil => cases h; exact ⟨rfl, rfl, id⟩
  | cons op ops ih =>
    obtain ⟨u, r, rs', hop, hrest, rfl⟩ := performAll_cons_next_iff.1 h
    obtain ⟨hlen, hkeeps⟩ := ih hrest
    exact ⟨by simp [hlen], (perform_keeps hop).trans hkeeps⟩

/-- Settles O11: by induction on the list of operations, each of which completes in the full mode and keeps the parameters
and the invariant in any. -/
theorem hostRunsNeverStopAndKeepTheInvariant : Obligations.HostRunsNeverStopAndKeepTheInvariant := by
  intro ops s
  refine ⟨performAll_completes_of_full ops, fun t rs h => ?_⟩
  obtain ⟨hlen, hcfg, hinv⟩ := performAll_keeps h
  exact ⟨hlen, hcfg, hinv⟩

end Sys2Proof.Machine

/-! The state after reset, and the invariant there and after every step (R20, R22, R25, R26, R170, R171). -/

namespace Sys2Proof.Machine

open Sys2Proof

/-! ### The invariant -/

theorem inv_resetWith (c : Config.Params) : (State.resetWith c).Inv where
  mem := Memory.wf_nil
  redraw := rfl
  held := fun _ h => nomatch h
  loadLen := Nat.zero_le _
  tone := rfl

/-- Settles O8: no key is held, memory lists nothing, and the other clauses are about zeros. -/
theorem resetMeetsTheInvariant : Obligations.ResetMeetsTheInvariant := ⟨inv_resetWith specDefault, inv_resetWith⟩

/-- A step that answers a next state steps to it: the refusals answer none. -/
theorem stepsTo_of_step {s t : State} (h : step s = .next t) : s.StepsTo t := by
  obtain ⟨t', h', hsteps⟩ | ⟨x, y, n, -, -, h'⟩ := step_cases s
  · obtain rfl : t' = t := by simpa [h'] using h
    exact hsteps
  · simp [h'] at h

/-- Settles O9: a step that answers a next state carries the key state, `load_len` and the form of memory over, and its
closing phases clear the redraw request and put out the level. -/
theorem stepKeepsTheInvariant : Obligations.StepKeepsTheInvariant := fun _ _ hs h => (stepsTo_of_step h).inv hs

/-! ### The table of values after reset -/

/-- The reset contents of the font area: byte r of glyph g lies at 5 * g + r (R33). -/
theorem Memory.unlisted_glyph (f : Config.Font) {g r : Nat} (hg : g < 16) (hr : r < 5) :
    Memory.unlisted f (5 * g + r) = (f[g])[r] := by
  have hrow : (5 * g + r) / 5 = g := by omega
  have hcol : (5 * g + r) % 5 = r := by omega
  rw [Memory.unlisted, dif_pos (by omega)]
  simp only [hrow, hcol]

/-- The reset contents above the font area (R32). -/
theorem Memory.unlisted_above_font (f : Config.Font) {a : Nat} (ha : 80 ≤ a) : Memory.unlisted f a = 0 :=
  dif_neg (by omega)

/-- The state after construction with another key state and draw counter, which is what `Reset` leaves (R171, decision D15). -/
def State.resetKeeping (c : Config.Params) (keys : Vector Bool 16) (held : Option Nibble) (rndIndex : Nat) : State :=
  { State.resetWith c with keys := keys, held := held, rndIndex := rndIndex }

theorem resetWith_eq_resetKeeping (c : Config.Params) :
    State.resetWith c = State.resetKeeping c (Vector.replicate 16 false) none 0 := rfl

theorem hostReset_eq_resetKeeping (u : State) : u.hostReset = State.resetKeeping u.cfg u.keys u.held u.rndIndex := rfl

section ResetKeeping

variable (c : Config.Params) (keys : Vector Bool 16) (held : Option Nibble) (rndIndex : Nat)

@[simp] theorem State.byte_resetKeeping (a : Nat) :
    (State.resetKeeping c keys held rndIndex).byte a = Memory.unlisted c.font a := rfl

@[simp] theorem State.reg_resetKeeping (r : Reg) : (State.resetKeeping c keys held rndIndex).reg r = 0 :=
  Vector.getElem_replicate r.isLt

theorem State.slot_resetKeeping (k : Fin 16) : (State.resetKeeping c keys held rndIndex).stack[k] = 0 :=
  Vector.getElem_replicate k.isLt

@[simp] theorem Framebuffer.cell_clear (k : Nat) : Framebuffer.clear.cell k = false := by
  simp [Framebuffer.cell, Framebuffer.clear]

@[simp] theorem State.cell_resetKeeping (k : Nat) : (State.resetKeeping c keys held rndIndex).fb.cell k = false :=
  Framebuffer.cell_clear k

end ResetKeeping

/-- Settles O6: both resets leave the state after construction but for the key state and the draw counter. -/
theorem resetLeavesTheTableOfValues : Obligations.ResetLeavesTheTableOfValues := by
  refine ⟨fun s hs => ?_, fun c => ⟨rfl, fun k => Vector.getElem_replicate k.isLt, rfl⟩, fun _ => ⟨rfl, rfl, rfl⟩, rfl, rfl⟩
  obtain ⟨c, keys, held, rndIndex, rfl⟩ : ∃ c keys held rndIndex, s = State.resetKeeping c keys held rndIndex := by
    obtain ⟨c, rfl⟩ | ⟨u, rfl⟩ := hs
    · exact ⟨_, _, _, _, resetWith_eq_resetKeeping c⟩
    · exact ⟨_, _, _, _, hostReset_eq_resetKeeping u⟩
  exact ⟨fun _ hg _ hr => Memory.unlisted_glyph c.font hg hr, fun _ ha _ => Memory.unlisted_above_font c.font ha,
    State.reg_resetKeeping c keys held rndIndex, rfl, rfl, rfl, State.slot_resetKeeping c keys held rndIndex, rfl, rfl,
    fun k _ => State.cell_resetKeeping c keys held rndIndex k, rfl, rfl, rfl, rfl, rfl, rfl⟩

end Sys2Proof.Machine

/-! The instructions the spec names as the writers of each piece of state (R10 to R22, R31, R36). -/

namespace Sys2Proof

open Machine

/-- Register r is the destination of the instruction, or one of the block it loads (R100 to R111, R125, R142). -/
def Instr.HasDestination (i : Instr) (r : Reg) : Prop :=
  (∃ b, i = .ldKk r b ∨ i = .addKk r b ∨ i = .rnd r b) ∨
  (∃ y, i = .ldXy r y ∨ i = .orXy r y ∨ i = .andXy r y ∨ i = .xorXy r y ∨ i = .addXy r y ∨ i = .subXy r y ∨
    i = .subnXy r y) ∨
  i = .shr r ∨ i = .shl r ∨ i = .ldXDt r ∨ ∃ x : Reg, r.toNat ≤ x.toNat ∧ i = .loadX x

/-- The instruction writes VF as a flag (R11). -/
def Instr.SetsFlag (i : Instr) : Prop :=
  (∃ x y, i = .addXy x y ∨ i = .subXy x y ∨ i = .subnXy x y) ∨ (∃ x, i = .shr x ∨ i = .shl x) ∨ ∃ x y n, i = .drw x y n

/-- CLS and DRW, which write the framebuffer (R17, R20). -/
def Instr.Draws (i : Instr) : Prop := i = .cls ∨ ∃ x y n, i = .drw x y n

/-- The transfers and the skips, which write PC beside the advance (R13, R73). -/
def Instr.Transfers (i : Instr) : Prop :=
  i = .ret ∨ (∃ a, i = .jp a ∨ i = .call a ∨ i = .jpV0 a) ∨ (∃ x b, i = .seKk x b ∨ i = .sneKk x b) ∨
  (∃ x y, i = .seXy x y ∨ i = .sneXy x y) ∨ ∃ x, i = .skp x ∨ i = .sknp x

/-- The spec names the instruction as a writer of the piece (R10 to R22, R31, R36). The fault output any instruction may
write; the causes are R150's. -/
def Instr.Writes (i : Instr) : Part → Prop
  | .reg r => i.HasDestination r ∨ r = VF ∧ i.SetsFlag
  | .i => (∃ a, i = .ldI a) ∨ ∃ x, i = .addIX x ∨ i = .ldFX x
  | .pc => i.Transfers
  | .sp => i = .ret ∨ ∃ a, i = .call a
  | .slot _ => ∃ a, i = .call a
  | .dt => ∃ x, i = .ldDtX x
  | .st => ∃ x, i = .ldStX x
  | .mem _ => ∃ x, i = .ldBX x ∨ i = .storeX x
  | .cell _ | .redraw => i.Draws
  | .mode | .waitX => ∃ x, i = .ldXK x
  | .rndIndex => ∃ x b, i = .rnd x b
  | .outFault => True
  | .cfg | .key _ | .held | .loadLen | .outFrame | .outTrace | .outTone => False

end Sys2Proof

/-! The frames of the shared operations, who writes what over all instructions (R10 to R22, R31, R36), and what a Running
step that answers a next state is made of (R71). -/

namespace Sys2Proof.Machine

open Sys2Proof

variable {s t u : State} {may may' : Part → Prop}

/-! ### Frames -/

theorem Part.same.trans {p : Part} (h : p.same s t) (h' : p.same t u) : p.same s u := by
  cases p <;> exact Eq.trans h' h

theorem Frame.mono (h : Frame may s t) (hle : ∀ p, may p → may' p) : Frame may' s t := fun p hp => h p (hp ∘ hle p)

theorem Frame.trans (h : Frame may s t) (h' : Frame may t u) : Frame may s u := fun p hp => (h p hp).trans (h' p hp)

/-- What is not the same is a piece that may change. -/
theorem Frame.may_of_not_same (h : Frame may s t) {p : Part} (hp : ¬ p.same s t) : may p :=
  not_imp_comm.1 (h p) hp

/-- A frame of two updates, from the frame of each. -/
theorem Frame.seq {ma mb : Part → Prop} (h : Frame ma s t) (h' : Frame mb t u) (ha : ∀ p, ma p → may p)
    (hb : ∀ p, mb p → may p) : Frame may s u :=
  (h.mono ha).trans (h'.mono hb)

/-- Only the listed pieces may change, so what holds of each of them holds of every piece that may. -/
theorem only_le {ps : List Part} (h : ∀ p ∈ ps, may p) : ∀ p, only ps p → may p := h

/-! ### The blit, DRW and the poll of the key state, by case -/

section

variable {m : Config.WrapMode} {x y : Reg} {n : Nibble}

/-- A blit with every pixel a cell draws (R132). -/
theorem blit_of_some {p : Framebuffer × Bool}
    (h : setPixels m s.fb (spritePixels (s.reg x).toNat (s.reg y).toNat (spriteRows s n)) = some p) :
    blit m x y n s = .next ((s.setReg VF (flagByte p.2)).redrawWith p.1) := by
  simp only [blit, h]

/-- A blit with a pixel that is no cell has no meaning (R135). -/
theorem blit_of_none (h : setPixels m s.fb (spritePixels (s.reg x).toNat (s.reg y).toNat (spriteRows s n)) = none) :
    blit m x y n s = .refused .pixelOutsideFramebuffer := by
  simp only [blit, h]

/-- DRW with no rows checks nothing (R132, decision D23). -/
theorem execDrw_no_rows (h : n = 0) : execDrw x y n s = blit s.cfg.wrapMode x y n s := if_pos h

/-- DRW with rows checks the range of the last (R132). -/
theorem execDrw_rows (h : n ≠ 0) :
    execDrw x y n s = guardRange (dataAddr s (n.toNat - 1)) s (blit s.cfg.wrapMode x y n s) := if_neg h

end

/-- A poll with no key held (R81). -/
theorem waitingStep_of_none (h : s.held = none) : waitingStep s = { s with out := { tone := s.tone } } := by
  simp only [waitingStep, h]

/-- A poll with a key held ends the wait (R81). -/
theorem waitingStep_of_held {k : Nibble} (h : s.held = some k) :
    waitingStep s = { s.setReg s.waitX (zextNibble k) with mode := .running, out := { tone := s.tone } } := by
  simp only [waitingStep, h]

/-! ### The frame of each shared operation -/

theorem frame_setReg (s : State) (x : Reg) (b : Byte) : Frame (only [.reg x]) s (s.setReg x b) := by
  intro p hp
  cases p with
  | reg r => exact State.reg_setReg_ne s b fun h => hp (by simp [only, h])
  | _ => rfl

theorem frame_setI (s : State) (w : Word) : Frame (only [.i]) s (s.setI w) := by
  intro p hp
  cases p with
  | i => exact absurd (List.mem_singleton.2 rfl) hp
  | _ => rfl

theorem frame_setPc (s : State) (w : Word) : Frame (only [.pc]) s (s.setPc w) := by
  intro p hp
  cases p with
  | pc => exact absurd (List.mem_singleton.2 rfl) hp
  | _ => rfl

theorem frame_setDt (s : State) (b : Byte) : Frame (only [.dt]) s (s.setDt b) := by
  intro p hp
  cases p with
  | dt => exact absurd (List.mem_singleton.2 rfl) hp
  | _ => rfl

theorem frame_setSt (s : State) (b : Byte) : Frame (only [.st]) s (s.setSt b) := by
  intro p hp
  cases p with
  | st => exact absurd (List.mem_singleton.2 rfl) hp
  | _ => rfl

theorem frame_withFault (s : State) (f : Fault) : Frame (only [.outFault]) s (s.withFault f) := by
  intro p hp
  cases p with
  | outFault => exact absurd (List.mem_singleton.2 rfl) hp
  | _ => rfl

theorem frame_skipIf (s : State) (c : Bool) : Frame (only [.pc]) s (s.skipIf c) := by
  rw [State.skipIf_eq]; exact frame_setPc s _

theorem frame_setFlagThenReg (s : State) (c : Bool) (x : Reg) (b : Byte) :
    Frame (only [.reg x, .reg VF]) s (s.setFlagThenReg c x b) :=
  (frame_setReg s VF _).seq (frame_setReg _ x b) (only_le (by simp [only])) (only_le (by simp [only]))

theorem frame_redrawWith (s : State) (fb : Framebuffer) :
    Frame (fun p => p = .redraw ∨ ∃ k, p = .cell k) s (s.redrawWith fb) := by
  intro p hp
  cases p with
  | redraw => exact absurd (.inl rfl) hp
  | cell k => exact absurd (.inr ⟨k, rfl⟩) hp
  | _ => rfl

/-- A block store changes the bytes it stores (R40). -/
theorem frame_storeBytes (s : State) (a : Nat) (bs : List Byte) :
    Frame (fun p => ∃ k < bs.length, p = .mem (a + k)) s (s.storeBytes a bs) := by
  intro p hp
  cases p with
  | mem b =>
    have hout : b < a ∨ a + bs.length ≤ b := by
      by_contra hin
      exact hp ⟨b - a, by omega, by congr 1; omega⟩
    exact State.byte_storeBytes_outside hout
  | _ => rfl

/-- A block load changes the registers up to the last it loads (R125). -/
theorem frame_loadRegsThrough (s : State) (x : Reg) :
    Frame (fun p => ∃ r : Reg, r.toNat ≤ x.toNat ∧ p = .reg r) s (s.loadRegsThrough x) := by
  intro p hp
  cases p with
  | reg r =>
    have hr : ¬ r.toNat ≤ x.toNat := fun h => hp ⟨r, h, rfl⟩
    simp [Part.same, reg_loadRegsThrough, hr]
  | _ => simp [Part.same]

/-- A push changes SP and the slot it fills (R14). -/
theorem frame_push {w : Word} (hsp : s.sp.val < 16) (h : s.push w = some t) :
    Frame (only [.sp, .slot ⟨s.sp.val, hsp⟩]) s t := by
  rw [push_free w hsp] at h
  cases h
  intro p hp
  cases p with
  | sp => exact absurd (List.mem_cons_self ..) hp
  | slot k =>
    have hk : s.sp.val ≠ k.val := fun e => hp (by simp [only, e])
    exact Vector.getElem_set_ne hsp k.isLt hk
  | _ => rfl

/-- A pop changes SP alone: the slot keeps its value (R14, decision D13). -/
theorem frame_pop {w : Word} (h : s.pop = some (w, t)) : Frame (only [.sp]) s t := by
  have hsp : 0 < s.sp.val := Nat.pos_of_ne_zero fun h0 => by simp [pop_empty h0] at h
  rw [pop_occupied hsp] at h
  cases h
  intro p hp
  cases p with
  | sp => exact absurd (List.mem_singleton.2 rfl) hp
  | _ => rfl

/-! ### Every instruction changes only what it writes -/

/-- Whatever next state a result is, it changes only the pieces that may change. -/
def Within (may : Part → Prop) (s : State) (r : Result) : Prop := ∀ t, r = .next t → Frame may s t

theorem within_next (h : Frame may s t) : Within may s (.next t) := by
  rintro _ ⟨⟩; exact h

theorem within_raise (hfault : may .outFault) (f : Fault) (s : State) : Within may s (raise f s) :=
  within_next ((frame_withFault s f).mono (only_le (by simpa using hfault)))

theorem within_guardRange {top : Nat} {r : Result} (hfault : may .outFault) (h : Within may s r) :
    Within may s (guardRange top s r) := by
  by_cases htop : top < 4096
  · rw [guardRange_inside htop]; exact h
  · rw [guardRange_outside htop]; exact within_raise hfault _ s

theorem within_execRet (s : State) : Within Instr.ret.Writes s (execRet s) := by
  unfold execRet
  split
  next w u hpop =>
    exact within_next ((frame_pop hpop).seq (frame_setPc u w) (only_le (by simp [Instr.Writes]))
      (only_le (by simp [Instr.Writes, Instr.Transfers])))
  next => exact within_raise trivial _ s

theorem within_execCall (nnn : Addr) (s : State) : Within (Instr.call nnn).Writes s (execCall nnn s) := by
  unfold execCall
  split
  next u hpush =>
    have hsp : s.sp.val < 16 := by
      by_contra h
      rw [push_full _ (by have := s.sp.isLt; omega)] at hpush
      cases hpush
    exact within_next ((frame_push hsp hpush).seq (frame_setPc u _) (only_le (by simp [Instr.Writes]))
      (only_le (by simp [Instr.Writes, Instr.Transfers])))
  next => exact within_raise trivial _ s

theorem redrawing_le {i : Instr} (h : i.Draws) : ∀ p, (p = .redraw ∨ ∃ k, p = .cell k) → i.Writes p := by
  rintro p (rfl | ⟨k, rfl⟩) <;> exact h

theorem within_execDrw (x y : Reg) (n : Nibble) (s : State) : Within (Instr.drw x y n).Writes s (execDrw x y n s) := by
  have hblit : Within (Instr.drw x y n).Writes s (blit s.cfg.wrapMode x y n s) := by
    cases h : setPixels s.cfg.wrapMode s.fb (spritePixels (s.reg x).toNat (s.reg y).toNat (spriteRows s n)) with
    | none => rw [blit_of_none h]; rintro t ⟨⟩
    | some p =>
      rw [blit_of_some h]
      exact within_next ((frame_setReg s VF _).seq (frame_redrawWith _ _)
        (only_le (by simp [Instr.Writes, Instr.SetsFlag])) (redrawing_le (.inr ⟨x, y, n, rfl⟩)))
  by_cases hn : n = 0
  · rw [execDrw_no_rows hn]; exact hblit
  · rw [execDrw_rows hn]; exact within_guardRange trivial hblit

theorem frame_ldXK (s : State) (x : Reg) :
    Frame (only [.mode, .waitX]) s { s with waitX := x, mode := .waitingForKey } := by
  intro p hp
  cases p with
  | mode => exact absurd (List.mem_cons_self ..) hp
  | waitX => exact absurd (List.mem_cons_of_mem _ (List.mem_cons_self ..)) hp
  | _ => rfl

theorem frame_rndWith (s : State) (b : Byte) (x : Reg) (kk : Byte) :
    Frame (only [.reg x, .rndIndex]) s (rndWith b x kk s) := by
  intro p hp
  cases p with
  | reg r => exact State.reg_setReg_ne s _ fun h => hp (by simp [only, h])
  | rndIndex => exact absurd (List.mem_cons_of_mem _ (List.mem_cons_self ..)) hp
  | _ => rfl

theorem storing_le {i : Instr} {a n : Nat} (h : ∃ x, i = .ldBX x ∨ i = .storeX x) :
    ∀ p, (∃ k < n, p = .mem (a + k)) → i.Writes p := by
  rintro p ⟨k, -, rfl⟩; exact h

/-- The execute phase changes only pieces the spec names the instruction as a writer of: one frame per instruction. -/
theorem within_exec (i : Instr) (s : State) : Within i.Writes s (exec i s) := by
  cases i with
  | cls => exact within_next ((frame_redrawWith s _).mono (redrawing_le (.inl rfl)))
  | ret => exact within_execRet s
  | call nnn => exact within_execCall nnn s
  | drw x y n => exact within_execDrw x y n s
  | jp | jpV0 => exact within_next ((frame_setPc s _).mono (only_le (by simp [Instr.Writes, Instr.Transfers])))
  | seKk | sneKk | seXy | sneXy | skp | sknp =>
    exact within_next ((frame_skipIf s _).mono (only_le (by simp [Instr.Writes, Instr.Transfers])))
  | ldKk | addKk | ldXy | orXy | andXy | xorXy | ldXDt =>
    exact within_next ((frame_setReg s _ _).mono (only_le (by simp [Instr.Writes, Instr.HasDestination])))
  | addXy | subXy | subnXy | shr | shl =>
    exact within_next ((frame_setFlagThenReg s _ _ _).mono
      (only_le (by simp [Instr.Writes, Instr.HasDestination, Instr.SetsFlag])))
  | rnd => exact within_next ((frame_rndWith s _ _ _).mono (only_le (by simp [Instr.Writes, Instr.HasDestination])))
  | ldI | addIX | ldFX => exact within_next ((frame_setI s _).mono (only_le (by simp [Instr.Writes])))
  | ldDtX => exact within_next ((frame_setDt s _).mono (only_le (by simp [Instr.Writes])))
  | ldStX => exact within_next ((frame_setSt s _).mono (only_le (by simp [Instr.Writes])))
  | ldXK x => exact within_next ((frame_ldXK s x).mono (only_le (by simp [Instr.Writes])))
  | ldBX x =>
    exact within_guardRange trivial (within_next ((frame_storeBytes s _ _).mono (storing_le ⟨x, .inl rfl⟩)))
  | storeX x =>
    exact within_guardRange trivial (within_next ((frame_storeBytes s _ _).mono (storing_le ⟨x, .inr rfl⟩)))
  | loadX x =>
    refine within_guardRange trivial (within_next ((frame_loadRegsThrough s x).mono ?_))
    rintro p ⟨r, hr, rfl⟩
    exact .inl (by simp [Instr.HasDestination, hr])

theorem writes_of_not_same {i : Instr} (h : exec i s = .next t) {p : Part} (hp : ¬ p.same s t) : i.Writes p :=
  (within_exec i s t h).may_of_not_same hp

/-- What writes VF: the flag-writing instructions, those with VF as their destination, and the block load of all registers
(R11, R125). -/
theorem writes_VF {i : Instr} (h : i.Writes (.reg VF)) :
    i.SetsFlag ∨ (∃ b, i = .ldKk 15 b ∨ i = .addKk 15 b ∨ i = .rnd 15 b) ∨
    (∃ y, i = .ldXy 15 y ∨ i = .orXy 15 y ∨ i = .andXy 15 y ∨ i = .xorXy 15 y) ∨ i = .ldXDt 15 ∨ i = .loadX 15 := by
  obtain (himm | ⟨y, hy⟩ | hshr | hshl | hdt | ⟨x, hx, rfl⟩) | ⟨-, hflag⟩ := h
  · exact .inr (.inl himm)
  · obtain h | h | h | h | h := hy
    · exact .inr (.inr (.inl ⟨y, .inl h⟩))
    · exact .inr (.inr (.inl ⟨y, .inr (.inl h)⟩))
    · exact .inr (.inr (.inl ⟨y, .inr (.inr (.inl h))⟩))
    · exact .inr (.inr (.inl ⟨y, .inr (.inr (.inr h))⟩))
    · exact .inl (.inl ⟨15, y, h⟩)
  · exact .inl (.inr (.inl ⟨15, .inl hshr⟩))
  · exact .inl (.inr (.inl ⟨15, .inr hshl⟩))
  · exact .inr (.inr (.inr (.inl hdt)))
  · have hx15 : x = 15 := by
      have hle : 15 ≤ x.toNat := hx
      have := x.isLt
      exact BitVec.eq_of_toNat_eq (by simp; omega)
    exact .inr (.inr (.inr (.inr (by rw [hx15]))))
  · exact .inl hflag

/-- The slots make up the stack. -/
theorem stack_eq_of_slots (h : ∀ k, (Part.slot k).same s t) : t.stack = s.stack :=
  Vector.ext fun k hk => h ⟨k, hk⟩

/-- Settles O25: each clause reads one piece off `within_exec`. -/
theorem eachPieceHasItsWriters : Obligations.EachPieceHasItsWriters := by
  intro i s t h
  have writes {p : Part} (hp : ¬ p.same s t) : i.Writes p := writes_of_not_same h hp
  refine ⟨fun ⟨a, ha⟩ => writes (p := .mem a) ha, fun ⟨k, hk⟩ => writes (p := .cell k) hk, fun hr => writes (p := .redraw) hr,
    fun hsp => writes (p := .sp) hsp, fun hst => ?stack, fun hi => writes (p := .i) hi, fun hdt => writes (p := .dt) hdt,
    fun hst => writes (p := .st) hst, fun hw => hw.elim (writes (p := .mode)) (writes (p := .waitX)),
    fun hrnd => writes (p := .rndIndex) hrnd, fun hpc => writes (p := .pc) hpc, fun r hr hreg => ?reg, fun hvf => ?flag,
    fun p hp => ?unwritten⟩
  case stack =>
    by_contra hnot
    exact hst (stack_eq_of_slots fun k => by_contra fun hk => hnot (writes hk))
  case reg => exact (writes (p := .reg r) hreg).resolve_right fun hflag => hr hflag.1
  case flag =>
    obtain (hf | hf | hf) | hd := writes_VF (writes (p := .reg VF) hvf)
    · exact .inl hf
    · exact .inr (.inl hf)
    · exact .inr (.inr (.inl hf))
    · exact .inr (.inr (.inr hd))
  case unwritten =>
    by_contra hne
    have hw := writes hne
    obtain hp | ⟨k, rfl⟩ := hp
    · simp only [List.mem_cons, List.not_mem_nil, or_false] at hp
      obtain rfl | rfl | rfl | rfl | rfl | rfl := hp <;> exact hw
    · exact hw

/-! ### The modes -/

/-- What a Running step that answers a next state is made of: it found no instruction and raised a fault, or it executed the
one it fetched; the closing phases end it (R71, R76). -/
theorem step_next_of_running (h : s.mode = .running) (hstep : step s = .next t) :
    ∃ b u, t = tickPhase (framePhase u) ∧
      ((fetched s = none ∧ ∃ f, u = (advance b s).withFault f) ∨
        ∃ i, fetched s = some i ∧ exec i (advance b s) = .next u) := by
  simp only [step, h] at hstep
  cases hf : fetch s with
  | error f =>
    rw [runningStep_of_fetch_error hf, finish_next_iff] at hstep
    obtain ⟨u, hu, ht⟩ := hstep
    exact ⟨_, u, ht, .inl ⟨by simp only [fetched, hf], f, raise_next hu⟩⟩
  | ok op =>
    cases hi : lookup s.cfg.opKeys op with
    | none =>
      rw [runningStep_of_lookup_none hf hi, finish_next_iff] at hstep
      obtain ⟨u, hu, ht⟩ := hstep
      exact ⟨_, u, ht, .inl ⟨by simp only [fetched, hf, hi], _, raise_next hu⟩⟩
    | some i =>
      rw [runningStep_of_lookup_some hf hi, finish_next_iff] at hstep
      obtain ⟨u, hu, ht⟩ := hstep
      exact ⟨_, u, ht, .inr ⟨i, by simp only [fetched, hf, hi], hu⟩⟩

/-- From Running, an instruction enters the wait exactly when it is LD x,K (R18, R143). -/
theorem exec_waits_iff {i : Instr} (hmode : s.mode = .running) (h : exec i s = .next t) :
    t.mode = .waitingForKey ↔ ∃ x, i = .ldXK x := by
  constructor
  · intro ht
    exact writes_of_not_same h (p := .mode) (by simp [Part.same, ht, hmode])
  · rintro ⟨x, rfl⟩
    cases h
    rfl

/-- A poll ends the wait exactly when a key is held (R81). -/
theorem waitingStep_runs_iff (hmode : s.mode = .waitingForKey) : (waitingStep s).mode = .running ↔ s.held ≠ none := by
  cases h : s.held with
  | none => simp [waitingStep_of_none h, hmode]
  | some k => simp [waitingStep_of_held h]

/-- Settles O18: the closing phases keep the mode, so a Running step's mode is that of its execute phase. -/
theorem onlyKeyWaitChangesTheMode : Obligations.OnlyKeyWaitChangesTheMode := by
  intro s t hstep
  refine ⟨fun hmode => ?_, fun hmode => ?_⟩
  · obtain ⟨b, u, rfl, ⟨hnone, f, rfl⟩ | ⟨i, hi, hu⟩⟩ := step_next_of_running hmode hstep
    · simp [hnone, hmode]
    · simp only [tickPhase_mode, framePhase_mode, hi, Option.some.injEq]
      exact exec_waits_iff (s := advance b s) hmode hu
  · obtain rfl : waitingStep s = t := by simpa [step, hmode] using hstep
    exact waitingStep_runs_iff hmode

end Sys2Proof.Machine

/-! The load length: a `Load` records it (R22, R43), and a step neither changes nor reads it. -/

namespace Sys2Proof.Machine

open Sys2Proof

variable {s t : State}

/-! ### A Load that succeeds -/

/-- A `Load` succeeds when the program fits; the length is then the program's (R43). -/
theorem load_ok {bs : List Byte} (h : s.load bs = .ok t) :
    512 + bs.length ≤ 4096 ∧ t = { s.storeBytes 512 bs with loadLen := bs.length } := by
  unfold State.load at h
  split at h
  next hfits => cases h; exact ⟨hfits, rfl⟩
  next => cases h

/-- A `Load` that answers nothing has succeeded (R155). -/
theorem perform_load_done {bs : List Byte} (h : s.perform (.load bs) = .next (t, .done)) : s.load bs = .ok t := by
  cases hload : s.load bs with
  | ok u => simp only [State.perform, hload] at h; cases h; rfl
  | error f => simp only [State.perform, hload] at h; cases h

/-! ### A step with another load length -/

/-- The state with another value in `load_len`. -/
def State.withLoadLen (s : State) (n : Nat) : State := { s with loadLen := n }

/-- A result with its next state, if it is one, changed. -/
def onNext (g : State → State) : Result → Result
  | .next s => .next (g s)
  | .fault f => .fault f
  | .refused r => .refused r

@[simp] theorem onNext_next (g : State → State) (s : State) : onNext g (.next s) = .next (g s) := rfl

/-- The operation does not read `load_len`: with another value in it the result is the same but for that value. -/
def IgnoresLoadLen (op : State → Result) : Prop :=
  ∀ s n, op (s.withLoadLen n) = onNext (·.withLoadLen n) (op s)

theorem withLoadLen_skipIf (s : State) (n : Nat) (c : Bool) : (s.withLoadLen n).skipIf c = (s.skipIf c).withLoadLen n := by
  cases c <;> rfl

theorem raise_withLoadLen (f : Fault) (s : State) (n : Nat) :
    raise f (s.withLoadLen n) = onNext (·.withLoadLen n) (raise f s) := rfl

theorem guardRange_withLoadLen (top : Nat) {s : State} {n : Nat} {r r' : Result} (h : r' = onNext (·.withLoadLen n) r) :
    guardRange top (s.withLoadLen n) r' = onNext (·.withLoadLen n) (guardRange top s r) := by
  by_cases htop : top < 4096
  · rw [guardRange_inside htop, guardRange_inside htop, h]
  · rw [guardRange_outside htop, guardRange_outside htop, raise_withLoadLen]

theorem execRet_ignoresLoadLen : IgnoresLoadLen execRet := by
  intro s n
  by_cases hsp : 0 < s.sp.val
  · simp only [execRet, pop_occupied hsp, pop_occupied (s := s.withLoadLen n) hsp]; rfl
  · have hempty := Nat.eq_zero_of_not_pos hsp
    simp only [execRet, pop_empty hempty, pop_empty (s := s.withLoadLen n) hempty]; rfl

theorem execCall_ignoresLoadLen (nnn : Addr) : IgnoresLoadLen (execCall nnn) := by
  intro s n
  by_cases hsp : s.sp.val < 16
  · simp only [execCall, push_free _ hsp, push_free (s := s.withLoadLen n) _ hsp]; rfl
  · have hfull : s.sp.val = 16 := by have := s.sp.isLt; omega
    simp only [execCall, push_full _ hfull, push_full (s := s.withLoadLen n) _ hfull]; rfl

theorem blit_ignoresLoadLen (m : Config.WrapMode) (x y : Reg) (k : Nibble) : IgnoresLoadLen (blit m x y k) := by
  intro s n
  cases h : setPixels m s.fb (spritePixels (s.reg x).toNat (s.reg y).toNat (spriteRows s k)) with
  | none => rw [blit_of_none h, blit_of_none (s := s.withLoadLen n) h]; rfl
  | some p => rw [blit_of_some h, blit_of_some (s := s.withLoadLen n) h]; rfl

theorem execDrw_ignoresLoadLen (x y : Reg) (k : Nibble) : IgnoresLoadLen (execDrw x y k) := by
  intro s n
  have hblit := blit_ignoresLoadLen s.cfg.wrapMode x y k s n
  by_cases hk : k = 0
  · rw [execDrw_no_rows hk, execDrw_no_rows hk]; exact hblit
  · rw [execDrw_rows hk, execDrw_rows hk]; exact guardRange_withLoadLen _ hblit

/-- No instruction reads `load_len` (R22). -/
theorem exec_ignoresLoadLen (i : Instr) : IgnoresLoadLen (exec i) := by
  cases i with
  | ret => exact execRet_ignoresLoadLen
  | call nnn => exact execCall_ignoresLoadLen nnn
  | drw x y k => exact execDrw_ignoresLoadLen x y k
  | ldBX | storeX | loadX => exact fun s n => guardRange_withLoadLen _ rfl
  | seKk | sneKk | seXy | sneXy | skp | sknp => exact fun s n => congrArg _ (withLoadLen_skipIf s n _)
  | cls | jp | jpV0 | ldKk | addKk | ldXy | orXy | andXy | xorXy | addXy | subXy | shr | subnXy | shl | rnd | ldI
  | ldXDt | ldXK | ldDtX | ldStX | addIX | ldFX => exact fun _ _ => rfl

theorem framePhase_withLoadLen (s : State) (n : Nat) : framePhase (s.withLoadLen n) = (framePhase s).withLoadLen n := by
  cases h : s.redraw <;> simp [framePhase, State.withLoadLen, h]

theorem finish_onNext (n : Nat) (r : Result) : finish (onNext (·.withLoadLen n) r) = onNext (·.withLoadLen n) (finish r) := by
  cases r with
  | next s => simp only [onNext_next, finish, framePhase_withLoadLen]; rfl
  | fault | refused => rfl

/-- No engine rule of a Running step reads `load_len` (R22): the fetch, the lookup and the advance are the same. -/
theorem runningStep_ignoresLoadLen : IgnoresLoadLen runningStep := by
  intro s n
  cases h : fetch s with
  | error f =>
    rw [runningStep_of_fetch_error h, runningStep_of_fetch_error (s := s.withLoadLen n) h, ← finish_onNext]; rfl
  | ok op =>
    cases hi : lookup s.cfg.opKeys op with
    | none =>
      rw [runningStep_of_lookup_none h hi, runningStep_of_lookup_none (s := s.withLoadLen n) h hi, ← finish_onNext]; rfl
    | some i =>
      rw [runningStep_of_lookup_some h hi, runningStep_of_lookup_some (s := s.withLoadLen n) h hi, ← finish_onNext,
        ← exec_ignoresLoadLen]
      rfl

theorem waitingStep_withLoadLen (s : State) (n : Nat) : waitingStep (s.withLoadLen n) = (waitingStep s).withLoadLen n := by
  cases h : s.held with
  | none => rw [waitingStep_of_none h, waitingStep_of_none (s := s.withLoadLen n) h]; rfl
  | some k => rw [waitingStep_of_held h, waitingStep_of_held (s := s.withLoadLen n) h]; rfl

theorem step_ignoresLoadLen : IgnoresLoadLen step := by
  intro s n
  cases h : s.mode with
  | running =>
    have h' : (s.withLoadLen n).mode = .running := h
    simpa only [step, h, h'] using runningStep_ignoresLoadLen s n
  | waitingForKey =>
    have h' : (s.withLoadLen n).mode = .waitingForKey := h
    simp only [step, h, h', waitingStep_withLoadLen, onNext_next]

/-- Settles O57: a `Load` that answers nothing has recorded the length of a program that fits, and a step ignores it. -/
theorem loadLengthIsRecordedAndNeverRead : Obligations.LoadLengthIsRecordedAndNeverRead := by
  refine ⟨fun s t bytes h => ?_, fun s n => ⟨fun t h => ⟨(stepsTo_of_step h).carries.loadLen, ?_⟩, fun r h => ?_⟩⟩
  · obtain ⟨hfits, rfl⟩ := load_ok (perform_load_done h)
    exact ⟨rfl, show bytes.length ≤ 3584 by omega⟩
  · exact (step_ignoresLoadLen s n).trans (by rw [h]; rfl)
  · exact (step_ignoresLoadLen s n).trans (by rw [h]; rfl)

end Sys2Proof.Machine

/-! Memory as the fetch, a block store, a `Load` and `Inspect` see it (R33, R34, R35, R37, R42, R43, R45). -/

namespace Sys2Proof.Machine

open Sys2Proof

variable {s : State}

/-! ### The fetch -/

/-- The byte at the lower address is the high byte of the word (R34). -/
theorem toNat_wordOfBytes (hi lo : Byte) : (wordOfBytes hi lo).toNat = 256 * hi.toNat + lo.toNat := by
  have hor : hi.toNat <<< 8 ||| lo.toNat = hi.toNat <<< 8 + lo.toNat := (Nat.shiftLeft_add_eq_or_of_lt lo.isLt _).symm
  rw [wordOfBytes, BitVec.toNat_append, hor, Nat.shiftLeft_eq]
  omega

/-- With both bytes inside memory the fetch is the word they make, whatever PC's parity (R35, R72). -/
theorem fetch_inside (h : s.pc.toNat + 1 < 4096) :
    fetch s = .ok (wordOfBytes (s.byte s.pc.toNat) (s.byte (s.pc.toNat + 1))) := if_pos h

/-- With a byte outside memory the fetch reports PC (R37, R72). -/
theorem fetch_outside (h : ¬ s.pc.toNat + 1 < 4096) : fetch s = .error (.addressRange .fetch s.pc.toNat) := if_neg h

/-! ### The frames of the phases, and a step whose execute phase only raises a fault -/

/-- The advance changes PC and the output record (R73, R80). -/
theorem frame_advance (s : State) (b : TraceBody) :
    Frame (only [.pc, .outFault, .outFrame, .outTrace, .outTone]) s (advance b s) := by
  intro p hp
  cases p with
  | pc | outFault | outFrame | outTrace | outTone => exact absurd (by simp [only]) hp
  | _ => rfl

/-- The tick changes the timers and the level put out (R78, R79). -/
theorem frame_tickPhase (s : State) : Frame (only [.dt, .st, .outTone]) s (tickPhase s) := by
  intro p hp
  cases p with
  | dt | st | outTone => exact absurd (by simp [only]) hp
  | _ => rfl

theorem step_of_running (h : s.mode = .running) : step s = runningStep s := by simp only [step, h]

/-- With no redraw requested, a step that raises a fault in place of an instruction advances, reports it and ticks (R76, R77,
R78). -/
theorem finish_raise_advance (hredraw : s.redraw = false) (f : Fault) (b : TraceBody) :
    finish (raise f (advance b s)) = .next (tickPhase ((advance b s).withFault f)) := by
  have hidle : framePhase ((advance b s).withFault f) = (advance b s).withFault f := framePhase_idle hredraw
  simp only [raise, finish, hidle]

/-- Such a step changes PC, the timers and the output record alone. -/
theorem frame_raise_advance (s : State) (f : Fault) (b : TraceBody) :
    Frame (only [.pc, .dt, .st, .outFault, .outFrame, .outTrace, .outTone]) s (tickPhase ((advance b s).withFault f)) :=
  ((frame_advance s b).seq (frame_withFault _ f) (only_le (by simp [only])) (only_le (by simp [only]))).seq
    (frame_tickPhase _) (fun _ => id) (only_le (by simp [only]))

/-- Settles O15: the two cases of `fetch`; a step whose fetch fails raises its fault in place of an instruction. -/
theorem fetchReadsTwoBytesOrFaults : Obligations.FetchReadsTwoBytesOrFaults := by
  refine ⟨fun s hpc => ⟨_, fetch_inside (by omega), toNat_wordOfBytes _ _⟩, fun s hpc hmode hredraw => ?_⟩
  have hstep : step s = .next (tickPhase ((advance .noWord s).withFault (.addressRange .fetch s.pc.toNat))) := by
    have hfetch : fetch s = .error (.addressRange .fetch s.pc.toNat) := fetch_outside (by omega)
    rw [step_of_running hmode, runningStep_of_fetch_error hfetch, finish_raise_advance hredraw]
  exact ⟨_, hstep, rfl, rfl, rfl, BitVec.toNat_add _ _, countDown_toNat _, countDown_toNat _, frame_raise_advance s _ _⟩

/-! ### A block store and the next fetch -/

/-- LD [I],x in range stores V0 to Vx from I on (R124). -/
theorem exec_storeX_inside {x : Reg} (h : dataAddr s x.toNat ≤ 4095) :
    exec (.storeX x) s = .next (s.storeBytes (dataAddr s 0) (s.regsThrough x)) :=
  guardRange_inside (Nat.lt_succ_of_le h)

/-- Where a block store puts a register it stores (R124). -/
theorem byte_storeBytes_regsThrough (s : State) (a : Nat) {x r : Reg} (h : r.toNat ≤ x.toNat) :
    (s.storeBytes a (s.regsThrough x)).byte (a + r.toNat) = s.reg r := by
  have hlt : r.toNat < (s.regsThrough x).length := by simp only [length_regsThrough]; omega
  rw [State.byte_storeBytes_inside hlt, getElem_regsThrough x r h]

/-- Settles O43: the store leaves PC, and at PC and PC + 1 it has put V0 and V1. -/
theorem storedBytesAreFetched : Obligations.StoredBytesAreFetched := by
  intro x s hx hpc htop
  refine ⟨_, exec_storeX_inside htop, ?_⟩
  have hinside : (s.storeBytes s.pc.toNat (s.regsThrough x)).pc.toNat + 1 < 4096 := by
    rw [State.storeBytes_pc]
    simp only [dataAddr] at hpc htop
    omega
  have hV0 : (s.storeBytes s.pc.toNat (s.regsThrough x)).byte s.pc.toNat = s.reg 0 :=
    byte_storeBytes_regsThrough s _ (r := 0) (Nat.zero_le _)
  have hV1 : (s.storeBytes s.pc.toNat (s.regsThrough x)).byte (s.pc.toNat + 1) = s.reg 1 :=
    byte_storeBytes_regsThrough s _ (r := 1) hx
  rw [hpc, fetch_inside hinside, State.storeBytes_pc, hV0, hV1, wordOfBytes]

/-! ### Load and Inspect -/

/-- A `Load` of a program that fits stores it from 512 on and records its length (R43). -/
theorem perform_load_fits {bs : List Byte} (h : 512 + bs.length ≤ 4096) :
    s.perform (.load bs) = .next ((s.storeBytes 512 bs).withLoadLen bs.length, .done) := by
  have hload : s.load bs = .ok ((s.storeBytes 512 bs).withLoadLen bs.length) := if_pos h
  simp only [State.perform, hload]

theorem frame_withLoadLen (s : State) (n : Nat) : Frame (only [.loadLen]) s (s.withLoadLen n) := by
  intro p hp
  cases p with
  | loadLen => exact absurd (List.mem_singleton.2 rfl) hp
  | _ => rfl

/-- Settles O56: a block store from 512 on, then the recorded length; each changes only its own pieces. -/
theorem loadWritesTheProgram : Obligations.LoadWritesTheProgram := by
  intro s bytes hfits
  refine ⟨_, perform_load_fits hfits, fun k hk => State.byte_storeBytes_inside (s := s) hk, rfl, ?_⟩
  exact (frame_storeBytes s 512 bytes).seq (frame_withLoadLen _ _) (fun _ => .inr) (only_le (by simp))

/-- Settles O59: `Inspect` is one read. -/
theorem inspectReadsOneByte : Obligations.InspectReadsOneByte := fun _ _ => rfl

/-! ### The font -/

theorem State.byte_resetWith (c : Config.Params) (a : Nat) : (State.resetWith c).byte a = Memory.unlisted c.font a := rfl

/-- After construction glyph g is the five bytes at 5 * g (R33). -/
theorem State.bytes_glyph (c : Config.Params) {g : Nat} (hg : g < 16) :
    (State.resetWith c).bytes (5 * g) 5 = (c.font[g]).toList := by
  refine List.ext_getElem (by simp [State.bytes]) fun r hr _ => ?_
  have hr5 : r < 5 := by simpa [State.bytes] using hr
  simpa [State.bytes, State.byte_resetWith] using Memory.unlisted_glyph c.font hg hr5

/-- After construction the sixteen glyphs are those of the parameter `FONT` (R33). -/
theorem State.bytes_glyphs (c : Config.Params) :
    (List.range 16).map (fun g => (State.resetWith c).bytes (5 * g) 5) = c.font.toList.map (·.toList) := by
  refine List.ext_getElem (by simp) fun g hg _ => ?_
  have hg16 : g < 16 := by simpa using hg
  simpa using State.bytes_glyph c hg16

/-- Settles O7: the glyphs of the parameter `FONT`, at the spec's default of it. -/
theorem fontAfterReset : Obligations.FontAfterReset := State.bytes_glyphs specDefault

end Sys2Proof.Machine

/-! Lookup and encoding, for every choice of `OPKEYS` in which no word matches two keys (R51 to R56). -/

namespace Sys2Proof.Laws

open Sys2Proof Sys2Proof.Config

variable {k : OpKeys} {op : Word}

/-! ### At most one key matches a word -/

/-- The rows with the masks they are tried under, in the order of the tiers (R53). -/
def maskedRows (k : OpKeys) : List (Word × Row) :=
  (tier1 k).map (mask1, ·) ++ (tier2 k).map (mask2, ·) ++ (tier3 k).map (mask3, ·) ++ (tier4 k).map (mask4, ·)

theorem maskedKeys_eq_map (k : OpKeys) : maskedKeys k = (maskedRows k).map fun p => (p.1, p.2.key) := rfl

/-- A row tried under an instruction's mask is among the masked rows. -/
theorem mem_maskedRows {i : Instr} {r : Row} (h : r ∈ rowsUnder k i.mask) : (i.mask, r) ∈ maskedRows k := by
  simp only [maskedRows, List.mem_append, List.mem_map, Prod.mk.injEq]
  obtain hm | hm | hm | hm := mask_cases i <;> rw [hm] at h ⊢
  · exact .inl (.inl (.inl ⟨r, h, rfl, rfl⟩))
  · exact .inl (.inl (.inr ⟨r, h, rfl, rfl⟩))
  · exact .inl (.inr ⟨r, h, rfl, rfl⟩)
  · exact .inr ⟨r, h, rfl, rfl⟩

/-- A later tier's mask lies inside an earlier one's (R53). -/
theorem masks_nested (k : OpKeys) : (maskedKeys k).Pairwise fun p q => p.1 &&& q.1 = q.1 := by
  have hmasks : (maskedKeys k).map Prod.fst =
      List.replicate 2 mask1 ++ List.replicate 11 mask2 ++ List.replicate 11 mask3 ++ List.replicate 10 mask4 := rfl
  have hnested : ((maskedKeys k).map Prod.fst).Pairwise fun m n => m &&& n = n := by rw [hmasks]; decide
  exact List.pairwise_map.1 hnested

/-- With the keys apart no word matches two of them (R53): with its mask inside the other's, the later of two keys that
match one word would match the earlier key too. -/
theorem pairwise_not_match (hk : k.wellFormed = true) (op : Word) :
    (maskedKeys k).Pairwise fun p q => ¬ (op &&& p.1 = p.2 ∧ op &&& q.1 = q.2) := by
  obtain ⟨-, hapart⟩ := (wellFormed_keys_iff k).1 hk
  refine (masks_nested k).imp₂ (fun p q hnest hne ⟨hp, hq⟩ => hne ?_) hapart
  rw [← hp, BitVec.and_assoc, hnest, hq]

/-- A word matches one row at most (R53). -/
theorem matching_row_unique (hk : k.wellFormed = true) {p q : Word × Row} (hp : p ∈ maskedRows k) (hq : q ∈ maskedRows k)
    (hpop : op &&& p.1 = p.2.key) (hqop : op &&& q.1 = q.2.key) : p = q := by
  have hrows := List.pairwise_map.1 (maskedKeys_eq_map k ▸ pairwise_not_match hk op)
  have hsymm : Std.Symm fun p q : Word × Row => ¬ (op &&& p.1 = p.2.key ∧ op &&& q.1 = q.2.key) :=
    ⟨fun _ _ => mt And.symm⟩
  by_contra hne
  exact hrows.forall hp hq hne ⟨hpop, hqop⟩

/-- If no word matches a key of each of two tiers, the second finds nothing where the first finds an instruction. -/
theorem lookupTier_eq_none_of_apart {m n : Word} {rows rows' : List Row}
    (hapart : ∀ p ∈ rows.map fun r => (m, r.key), ∀ q ∈ rows'.map fun r => (n, r.key),
      ¬ (op &&& p.1 = p.2 ∧ op &&& q.1 = q.2))
    (h : lookupTier m rows op ≠ none) : lookupTier n rows' op = none := by
  simp only [List.forall_mem_map] at hapart
  obtain ⟨r, hr, hop⟩ : ∃ r ∈ rows, op &&& m = r.key := by simpa [lookupTier_eq_none] using h
  exact lookupTier_eq_none.2 fun r' hr' hop' => hapart r hr r' hr' ⟨hop, hop'⟩

/-- Settles O5: the keys of each tier stand after those of the tiers before it, and no word matches two of the list. -/
theorem noWordMatchesAtTwoTiers : Obligations.NoWordMatchesAtTwoTiers := by
  intro k hk op
  have hpairs := pairwise_not_match hk op
  simp only [maskedKeys, List.pairwise_append, List.forall_mem_append] at hpairs
  obtain ⟨⟨⟨-, -, h12⟩, -, h13, h23⟩, -, ⟨h14, h24⟩, h34⟩ := hpairs
  exact ⟨fun h => ⟨lookupTier_eq_none_of_apart h12 h, lookupTier_eq_none_of_apart h13 h, lookupTier_eq_none_of_apart h14 h⟩,
    fun h => ⟨lookupTier_eq_none_of_apart h23 h, lookupTier_eq_none_of_apart h24 h⟩, lookupTier_eq_none_of_apart h34⟩

/-! ### Lookup finds the row that matches -/

theorem lookup_eq_find? (k : OpKeys) (op : Word) :
    lookup k op = ((maskedRows k).find? fun p => op &&& p.1 == p.2.key).map fun p => p.2.build (fieldsOf op) := by
  simp [lookup, lookupTier, maskedRows, List.find?_append, List.find?_map, Option.map_or, Function.comp_def]

/-- What lookup answers is built by a row the word matches. -/
theorem exists_row_of_lookup {i : Instr} (h : lookup k op = some i) :
    ∃ p ∈ maskedRows k, op &&& p.1 = p.2.key ∧ p.2.build (fieldsOf op) = i := by
  rw [lookup_eq_find?, Option.map_eq_some_iff] at h
  obtain ⟨p, hp, hbuild⟩ := h
  exact ⟨p, List.mem_of_find?_eq_some hp, by simpa using List.find?_some hp, hbuild⟩

/-- The instruction a word selects is that of the one row it matches, whatever its tier (R53). -/
theorem lookup_of_match (hk : k.wellFormed = true) {p : Word × Row} (hp : p ∈ maskedRows k)
    (hop : op &&& p.1 = p.2.key) : lookup k op = some (p.2.build (fieldsOf op)) := by
  have hfound : ((maskedRows k).find? fun p => op &&& p.1 == p.2.key).isSome :=
    List.find?_isSome.2 ⟨p, hp, beq_iff_eq.2 hop⟩
  obtain ⟨q, hq⟩ := Option.isSome_iff_exists.1 hfound
  obtain rfl := matching_row_unique hk hp (List.mem_of_find?_eq_some hq) hop (by simpa using List.find?_some hq)
  rw [lookup_eq_find?, hq, Option.map_some]

/-! ### Decoding an encoding -/

/-- Every instruction has its row (R54). -/
theorem OwnRow.all (i : Instr) : Statement i := by
  cases i with
  | cls => exact cls
  | ret => exact ret
  | jp nnn => exact jp nnn
  | call nnn => exact call nnn
  | seKk x kk => exact seKk x kk
  | sneKk x kk => exact sneKk x kk
  | seXy x y => exact seXy x y
  | ldKk x kk => exact ldKk x kk
  | addKk x kk => exact addKk x kk
  | ldXy x y => exact ldXy x y
  | orXy x y => exact orXy x y
  | andXy x y => exact andXy x y
  | xorXy x y => exact xorXy x y
  | addXy x y => exact addXy x y
  | subXy x y => exact subXy x y
  | shr x => exact shr x
  | subnXy x y => exact subnXy x y
  | shl x => exact shl x
  | sneXy x y => exact sneXy x y
  | ldI nnn => exact ldI nnn
  | jpV0 nnn => exact jpV0 nnn
  | rnd x kk => exact rnd x kk
  | drw x y n => exact drw x y n
  | skp x => exact skp x
  | sknp x => exact sknp x
  | ldXDt x => exact ldXDt x
  | ldXK x => exact ldXK x
  | ldDtX x => exact ldDtX x
  | ldStX x => exact ldStX x
  | addIX x => exact addIX x
  | ldFX x => exact ldFX x
  | ldBX x => exact ldBX x
  | storeX x => exact storeX x
  | loadX x => exact loadX x

/-- The word of an instruction selects it. -/
theorem lookup_encodeWord (hk : k.wellFormed = true) (i : Instr) : lookup k (encodeWord k i) = some i := by
  obtain ⟨r, hr, -, hmatch, hbuild⟩ := OwnRow.all i k ((wellFormed_keys_iff k).1 hk).1
  rw [lookup_of_match hk (mem_maskedRows hr) hmatch, hbuild]

/-- Settles O2: an instruction's word matches the row of its own tier, which reads its operands back, and no other row. -/
theorem decodeOfEncodeIsTheInstruction : Obligations.DecodeOfEncodeIsTheInstruction := by
  refine ⟨fun k hk i rest => ?_, by decide⟩
  rw [encode, decode_bytesOfWord, lookup_encodeWord hk]

/-! ### Encoding what was decoded -/

/-- The bits of a word an instruction takes operands from (R51, R52); not the y field of SHR and SHL (R56). -/
def operandMask : Instr → Word
  | .cls | .ret => 0
  | .skp _ | .sknp _ | .ldXDt _ | .ldXK _ | .ldDtX _ | .ldStX _ | .addIX _ | .ldFX _ | .ldBX _ | .storeX _ | .loadX _
  | .shr _ | .shl _ => 0x0F00
  | .seXy _ _ | .ldXy _ _ | .orXy _ _ | .andXy _ _ | .xorXy _ _ | .addXy _ _ | .subXy _ _ | .subnXy _ _ | .sneXy _ _ =>
    0x0FF0
  | .jp _ | .call _ | .seKk _ _ | .sneKk _ _ | .ldKk _ _ | .addKk _ _ | .ldI _ | .jpV0 _ | .rnd _ _ | .drw _ _ _ => 0x0FFF

/-- What the row builds of any word has the row's mask and key, and the word's own bits for operands. -/
def RowInverts (k : OpKeys) (p : Word × Row) : Prop :=
  ∀ op i, p.2.build (fieldsOf op) = i → i.mask = p.1 ∧ k.keyOf i = p.2.key ∧ i.operandBits = op &&& operandMask i

/-- The fields of a word in their places, format by format, are the word's own bits there (R51, R52). -/
theorem fields_in_place (op : Word) :
    (0#4 ++ (fieldsOf op).nnn : Word) = op &&& 0x0FFF ∧
      (0#4 ++ (fieldsOf op).x ++ (fieldsOf op).kk : Word) = op &&& 0x0FFF ∧
      (0#4 ++ (fieldsOf op).x ++ (fieldsOf op).y ++ (fieldsOf op).n : Word) = op &&& 0x0FFF ∧
      (0#4 ++ (fieldsOf op).x ++ (fieldsOf op).y ++ 0#4 : Word) = op &&& 0x0FF0 ∧
      (0#4 ++ (fieldsOf op).x ++ 0#8 : Word) = op &&& 0x0F00 := by
  refine ⟨?_, ?_, ?_, ?_, ?_⟩ <;> apply BitVec.eq_of_getLsbD_eq <;>
    simp only [fieldsOf, BitVec.getLsbD_and, BitVec.getLsbD_extractLsb', BitVec.getLsbD_append] <;>
    intro i hi <;> interval_cases i <;> simp

/-- Every row does, tier by tier: a tier's rows are of one format or a few (R52, R54). -/
theorem rowInverts (k : OpKeys) : ∀ p ∈ maskedRows k, RowInverts k p := by
  simp only [maskedRows, List.forall_mem_append, List.forall_mem_map]
  refine ⟨⟨⟨?_, ?_⟩, ?_⟩, ?_⟩
  · simp [tier1, RowInverts, Instr.mask, OpKeys.keyOf, Instr.operandBits, operandMask]
  · simp [tier2, RowInverts, Instr.mask, OpKeys.keyOf, Instr.operandBits, operandMask, fields_in_place]
  · simp [tier3, RowInverts, Instr.mask, OpKeys.keyOf, Instr.operandBits, operandMask, fields_in_place]
  · simp [tier4, RowInverts, Instr.mask, OpKeys.keyOf, Instr.operandBits, operandMask, fields_in_place]

/-- The word of a decoded instruction is the decoded word's bits under the mask and in the operands' places. -/
theorem encodeWord_of_lookup {i : Instr} (h : lookup k op = some i) : encodeWord k i = op &&& (i.mask ||| operandMask i) := by
  obtain ⟨p, hp, hmatch, hbuild⟩ := exists_row_of_lookup h
  obtain ⟨hmask, hkey, hbits⟩ := rowInverts k p hp op i hbuild
  rw [encodeWord, hkey, hbits, hmask, BitVec.and_or_distrib_left, ← hmatch]

/-- The mask and the operands' places are the whole word, but for the y field of SHR and SHL (R56). -/
theorem mask_or_operandMask_shift {i : Instr} (h : (∃ x, i = .shr x) ∨ ∃ x, i = .shl x) :
    i.mask ||| operandMask i = 0xFF0F := by
  obtain ⟨x, rfl⟩ | ⟨x, rfl⟩ := h <;> simp only [Instr.mask, operandMask] <;> decide

theorem mask_or_operandMask {i : Instr} (hshr : ∀ x, i ≠ .shr x) (hshl : ∀ x, i ≠ .shl x) :
    i.mask ||| operandMask i = BitVec.allOnes 16 := by
  cases i with
  | shr x => exact absurd rfl (hshr x)
  | shl x => exact absurd rfl (hshl x)
  | _ => simp only [Instr.mask, operandMask]; decide

/-- Settles O3: the key gives back the bits under the mask and the operands those in their places, which is the whole word
but for the y field of SHR and SHL. -/
theorem decodedWordIsTheEncoding : Obligations.DecodedWordIsTheEncoding := by
  intro k _ op i h
  rw [encodeWord_of_lookup h]
  refine ⟨fun hshift => ?_, fun hshr hshl => ?_⟩
  · rw [mask_or_operandMask_shift hshift]
  · rw [mask_or_operandMask hshr hshl, BitVec.and_allOnes]

end Sys2Proof.Laws

/-! Lookup under the spec's default `OPKEYS`: the words it leaves (R55), and sample words (R54, R58). -/

namespace Sys2Proof.Laws

open Sys2Proof Sys2Proof.Config
open Sys2Proof.Config.OpKeys (conventional)

variable {k : OpKeys} {op : Word}

/-! ### The words each tier leaves -/

/-- Where every key of a tier and the masked word are written out of their parts: the tier finds nothing exactly when the
word's part is none of the keys'. -/
theorem lookupTier_eq_none_iff_not_mem {α : Type} {m : Word} {rows : List Row} {word : α → Word} {part : Word → α}
    {parts : List α} (hkeys : rows.map Row.key = parts.map word) (hpart : Function.LeftInverse part word)
    (hop : op &&& m = word (part op)) : lookupTier m rows op = none ↔ part op ∉ parts := by
  rw [← List.mem_map_of_injective hpart.injective, ← hkeys, ← hop, lookupTier_eq_none]
  simp [eq_comm]

/-- A word is its leading nibble, the next one, and its low byte. -/
theorem word_eq_xk (op : Word) : op = (topNibble op ++ op.extractLsb' 8 4 ++ op.extractLsb' 0 8 : BitVec 16) := by
  apply BitVec.eq_of_getLsbD_eq
  simp only [topNibble, BitVec.getLsbD_extractLsb', BitVec.getLsbD_append]
  intro i hi
  interval_cases i <;> simp

theorem lookupTier1_conventional_eq_none :
    lookupTier mask1 (tier1 conventional) op = none ↔ op ∉ [0x00E0#16, 0x00EE#16] :=
  lookupTier_eq_none_iff_not_mem (part := id) (word := id) rfl (fun _ => rfl) BitVec.and_allOnes

theorem lookupTier2_conventional_eq_none : lookupTier mask2 (tier2 conventional) op = none ↔
    (topNibble op, (fieldsOf op).kk) ∉ [(0xE#4, 0x9E#8), (0xE#4, 0xA1#8), (0xF#4, 0x07#8), (0xF#4, 0x0A#8),
      (0xF#4, 0x15#8), (0xF#4, 0x18#8), (0xF#4, 0x1E#8), (0xF#4, 0x29#8), (0xF#4, 0x33#8), (0xF#4, 0x55#8),
      (0xF#4, 0x65#8)] := by
  refine lookupTier_eq_none_iff_not_mem (α := BitVec 4 × Byte) (part := fun op => (topNibble op, (fieldsOf op).kk))
    (word := fun p => (p.1 ++ 0#4 ++ p.2 : Word)) rfl
    (fun p => Prod.ext (topNibble_xk p.1 0#4 p.2) (fieldsOf_xk p.1 0#4 p.2).2) ?_
  conv_lhs => rw [word_eq_xk op, and_mask2]
  rfl

theorem lookupTier3_conventional_eq_none : lookupTier mask3 (tier3 conventional) op = none ↔
    (topNibble op, (fieldsOf op).n) ∉ [(0x5#4, 0x0#4), (0x8#4, 0x0#4), (0x8#4, 0x1#4), (0x8#4, 0x2#4), (0x8#4, 0x3#4),
      (0x8#4, 0x4#4), (0x8#4, 0x5#4), (0x8#4, 0x6#4), (0x8#4, 0x7#4), (0x8#4, 0xE#4), (0x9#4, 0x0#4)] := by
  refine lookupTier_eq_none_iff_not_mem (α := BitVec 4 × Nibble) (part := fun op => (topNibble op, (fieldsOf op).n))
    (word := fun p => (p.1 ++ 0#4 ++ 0#4 ++ p.2 : Word)) rfl
    (fun p => Prod.ext (topNibble_xyn p.1 0#4 0#4 p.2) (fieldsOf_xyn p.1 0#4 0#4 p.2).2.2) ?_
  conv_lhs => rw [word_eq_nibbles op, and_mask3]
  rfl

theorem lookupTier4_conventional_eq_none : lookupTier mask4 (tier4 conventional) op = none ↔
    topNibble op ∉ [0x1#4, 0x2#4, 0x3#4, 0x4#4, 0x6#4, 0x7#4, 0xA#4, 0xB#4, 0xC#4, 0xD#4] := by
  refine lookupTier_eq_none_iff_not_mem (word := fun a => a ++ 0#12) rfl (fun a => topNibble_a a 0#12) ?_
  conv_lhs => rw [word_eq_nibbles op, and_mask4_xyn]

/-! ### The undecodable words -/

theorem lookup_eq_none : lookup k op = none ↔ lookupTier mask1 (tier1 k) op = none ∧ lookupTier mask2 (tier2 k) op = none ∧
    lookupTier mask3 (tier3 k) op = none ∧ lookupTier mask4 (tier4 k) op = none := by
  simp [lookup]

/-- In group 8 the low nibbles left by the keys (R55). -/
theorem not_mem_group8 (n : BitVec 4) :
    n ∉ [0x0#4, 0x1#4, 0x2#4, 0x3#4, 0x4#4, 0x5#4, 0x6#4, 0x7#4, 0xE#4] ↔
      n ∈ [0x8#4, 0x9#4, 0xA#4, 0xB#4, 0xC#4, 0xD#4, 0xF#4] := by
  revert n; decide

/-- The groups that have no key of tier 4. -/
theorem not_mem_tier4_groups (a : BitVec 4) :
    a ∉ [0x1#4, 0x2#4, 0x3#4, 0x4#4, 0x6#4, 0x7#4, 0xA#4, 0xB#4, 0xC#4, 0xD#4] ↔
      a ∈ [0x0#4, 0x5#4, 0x8#4, 0x9#4, 0xE#4, 0xF#4] := by
  revert a; decide

/-- The words of tier 1 are of group 0. -/
theorem topNibble_of_mem_tier1_words : ∀ op ∈ [0x00E0#16, 0x00EE#16], topNibble op = 0x0#4 := by
  simp [topNibble]

/-- Settles O4: only groups 0, 5, 8, 9, E and F have no key of tier 4; there the other tiers leave what the table lists. -/
theorem undecodableWordsAreThoseListed : Obligations.UndecodableWordsAreThoseListed := by
  intro op
  rw [lookup_eq_none, lookupTier1_conventional_eq_none, lookupTier2_conventional_eq_none, lookupTier3_conventional_eq_none,
    lookupTier4_conventional_eq_none, not_mem_tier4_groups]
  have hgroup0 : topNibble op ≠ 0x0#4 → op ∉ [0x00E0#16, 0x00EE#16] := mt (topNibble_of_mem_tier1_words op)
  -- The table's nibbles and byte by the names of R51, which the tiers' lemmas use.
  change _ ↔ (topNibble op = _ ∧ _) ∨ (topNibble op = _ ∧ (fieldsOf op).n ≠ _) ∨
    (topNibble op = _ ∧ (fieldsOf op).n ∈ _) ∨ (topNibble op = _ ∧ (fieldsOf op).n ≠ _) ∨
    (topNibble op = _ ∧ (fieldsOf op).kk ∉ _) ∨ (topNibble op = _ ∧ (fieldsOf op).kk ∉ _)
  generalize topNibble op = a at *
  by_cases ha : a ∈ [0x0#4, 0x5#4, 0x8#4, 0x9#4, 0xE#4, 0xF#4]
  all_goals simp only [List.mem_cons, List.not_mem_nil, or_false, not_or] at ha
  · obtain rfl | rfl | rfl | rfl | rfl | rfl := ha
    · simp
    · simp [hgroup0]
    · simpa [hgroup0] using not_mem_group8 (fieldsOf op).n
    · simp [hgroup0]
    · simp [hgroup0]
    · simp [hgroup0]
  · simp [ha]

/-! ### Sample words -/

/-- Settles O1: each word is looked up. -/
theorem sampleWordsDecode : Obligations.SampleWordsDecode :=
  ⟨rfl, rfl, rfl, rfl, rfl, rfl, rfl, rfl, rfl, rfl, rfl, rfl, rfl, rfl⟩

/-- Settles O60: each word is looked up and its tokens are written out. -/
theorem renderedExamples : Obligations.RenderedExamples := by
  unfold Obligations.RenderedExamples; decide

end Sys2Proof.Laws

/-! The faults an instruction raises and their causes (R76, R150, R157, R158). -/

namespace Sys2Proof.Machine

open Sys2Proof

variable {s t u : State}

/-! ### The causes -/

/-- The instruction, executed in the state, has this cause to raise a fault (R150, R157). PC already holds the address after
the instruction (R73). -/
inductive Raises (s : State) : Instr → Fault → Prop where
  | stackOverflow (a : Addr) (h : s.sp.val = 16) : Raises s (.call a) (.stackOverflow s.instrAddress s.pc)
  | stackUnderflow (h : s.sp.val = 0) : Raises s .ret (.stackUnderflow s.instrAddress)
  | digits (x : Reg) (h : ¬ dataAddr s 2 < 4096) : Raises s (.ldBX x) (.addressRange .data (dataAddr s 2))
  | store (x : Reg) (h : ¬ dataAddr s x.toNat < 4096) :
    Raises s (.storeX x) (.addressRange .data (dataAddr s x.toNat))
  | load (x : Reg) (h : ¬ dataAddr s x.toNat < 4096) : Raises s (.loadX x) (.addressRange .data (dataAddr s x.toNat))
  | sprite (x y : Reg) (n : Nibble) (hn : n ≠ 0) (h : ¬ dataAddr s (n.toNat - 1) < 4096) :
    Raises s (.drw x y n) (.addressRange .data (dataAddr s (n.toNat - 1)))

/-- An instruction with a cause raises its fault and does nothing else (R76, R158). -/
theorem exec_of_raises {i : Instr} {f : Fault} (h : Raises s i f) : exec i s = .next (s.withFault f) := by
  cases h with
  | stackOverflow a h => simp only [exec, execCall, push_full _ h, raise]
  | stackUnderflow h => simp only [exec, execRet, pop_empty h, raise]
  | digits x h => exact guardRange_outside h
  | store x h => exact guardRange_outside h
  | load x h => exact guardRange_outside h
  | sprite x y n hn h => exact (execDrw_rows hn).trans (guardRange_outside h)

/-! ### No other fault is raised -/

/-- A guarded answer is the fault out of range, or what is guarded (R38). -/
theorem guardRange_next {top : Nat} {r : Result} (h : guardRange top s r = .next t) :
    (¬ top < 4096 ∧ t = s.withFault (.addressRange .data top)) ∨ r = .next t := by
  by_cases htop : top < 4096
  · exact .inr ((guardRange_inside htop).symm.trans h)
  · exact .inl ⟨htop, raise_next ((guardRange_outside htop).symm.trans h)⟩

/-- A blit that answers a next state requests a redraw and leaves the outputs (R132). -/
theorem blit_next {m : Config.WrapMode} {x y : Reg} {n : Nibble} (h : blit m x y n s = .next t) :
    t.redraw = true ∧ t.out = s.out := by
  cases hp : setPixels m s.fb (spritePixels (s.reg x).toNat (s.reg y).toNat (spriteRows s n)) with
  | none => rw [blit_of_none hp] at h; cases h
  | some p => rw [blit_of_some hp] at h; cases h; exact ⟨rfl, rfl⟩

/-- DRW raises its fault or draws (R132). -/
theorem execDrw_next {x y : Reg} {n : Nibble} (h : execDrw x y n s = .next t) :
    (∃ f, Raises s (.drw x y n) f ∧ t = s.withFault f) ∨ (t.redraw = true ∧ t.out = s.out) := by
  by_cases hn : n = 0
  · exact .inr (blit_next (execDrw_no_rows hn ▸ h))
  · rw [execDrw_rows hn] at h
    exact (guardRange_next h).imp (fun ⟨htop, ht⟩ => ⟨_, .sprite x y n hn htop, ht⟩) blit_next

theorem execRet_next (h : execRet s = .next t) :
    (∃ f, Raises s .ret f ∧ t = s.withFault f) ∨ t.out = s.out := by
  by_cases hsp : 0 < s.sp.val
  · simp only [execRet, pop_occupied hsp] at h; cases h; exact .inr rfl
  · have hempty : s.sp.val = 0 := Nat.eq_zero_of_not_pos hsp
    simp only [execRet, pop_empty hempty] at h
    exact .inl ⟨_, .stackUnderflow hempty, raise_next h⟩

theorem execCall_next {a : Addr} (h : execCall a s = .next t) :
    (∃ f, Raises s (.call a) f ∧ t = s.withFault f) ∨ t.out = s.out := by
  by_cases hsp : s.sp.val < 16
  · simp only [execCall, push_free _ hsp] at h; cases h; exact .inr rfl
  · have hfull : s.sp.val = 16 := by have := s.sp.isLt; omega
    simp only [execCall, push_full _ hfull] at h
    exact .inl ⟨_, .stackOverflow a hfull, raise_next h⟩

/-- What an instruction that answers a next state does to the outputs: it has a cause and raises its fault alone, or it leaves
them (R76). -/
theorem exec_next {i : Instr} (h : exec i s = .next t) :
    (∃ f, Raises s i f ∧ t = s.withFault f) ∨ t.out = s.out := by
  cases i with
  | call a => exact execCall_next h
  | ret => exact execRet_next h
  | drw x y n => exact (execDrw_next h).imp_right And.right
  | ldBX x =>
    exact (guardRange_next h).imp (fun ⟨htop, ht⟩ => ⟨_, .digits x htop, ht⟩) fun h => by cases h; rfl
  | storeX x =>
    exact (guardRange_next h).imp (fun ⟨htop, ht⟩ => ⟨_, .store x htop, ht⟩) fun h => by cases h; rfl
  | loadX x =>
    exact (guardRange_next h).imp (fun ⟨htop, ht⟩ => ⟨_, .load x htop, ht⟩) fun h => by cases h; rfl
  | seKk | sneKk | seXy | sneXy | skp | sknp => cases h; exact .inr (by simp [State.skipIf_eq])
  | cls | jp | jpV0 | ldKk | addKk | ldXy | orXy | andXy | xorXy | addXy | subXy | shr | subnXy | shl | rnd | ldI
  | ldXDt | ldXK | ldDtX | ldStX | addIX | ldFX => cases h; exact .inr rfl

/-- An instruction has a cause exactly when it is one of R157's list with its operands out of bounds (R150). -/
theorem exists_raises_iff {i : Instr} : (∃ f, Raises s i f) ↔
    (∃ a, i = .call a) ∧ s.sp.val = 16 ∨ i = .ret ∧ s.sp.val = 0 ∨
    (∃ x, i = .ldBX x) ∧ 4095 < dataAddr s 2 ∨
    (∃ x, (i = .storeX x ∨ i = .loadX x) ∧ 4095 < dataAddr s x.toNat) ∨
    (∃ x y n, i = .drw x y n ∧ n ≠ 0 ∧ 4095 < dataAddr s (n.toNat - 1)) := by
  constructor
  · rintro ⟨f, h⟩
    cases h with
    | stackOverflow a h => exact .inl ⟨⟨a, rfl⟩, h⟩
    | stackUnderflow h => exact .inr (.inl ⟨rfl, h⟩)
    | digits x h => exact .inr (.inr (.inl ⟨⟨x, rfl⟩, Nat.not_lt.1 h⟩))
    | store x h => exact .inr (.inr (.inr (.inl ⟨x, .inl rfl, Nat.not_lt.1 h⟩)))
    | load x h => exact .inr (.inr (.inr (.inl ⟨x, .inr rfl, Nat.not_lt.1 h⟩)))
    | sprite x y n hn h => exact .inr (.inr (.inr (.inr ⟨x, y, n, rfl, hn, Nat.not_lt.1 h⟩)))
  · rintro (⟨⟨a, rfl⟩, h⟩ | ⟨rfl, h⟩ | ⟨⟨x, rfl⟩, h⟩ | ⟨x, rfl | rfl, h⟩ | ⟨x, y, n, rfl, hn, h⟩)
    · exact ⟨_, .stackOverflow a h⟩
    · exact ⟨_, .stackUnderflow h⟩
    · exact ⟨_, .digits x (Nat.not_lt.2 h)⟩
    · exact ⟨_, .store x (Nat.not_lt.2 h)⟩
    · exact ⟨_, .load x (Nat.not_lt.2 h)⟩
    · exact ⟨_, .sprite x y n hn (Nat.not_lt.2 h)⟩

/-- From a record without a fault, the fault an instruction leaves in it is the one it has a cause for (R76). -/
theorem exec_fault_iff {i : Instr} {f : Fault} (hs : s.out.fault = none) (h : exec i s = .next t) :
    t.out.fault = some f ↔ Raises s i f := by
  constructor
  · intro hf
    obtain ⟨g, hg, rfl⟩ | hout := exec_next h
    · obtain rfl : g = f := Option.some.inj hf
      exact hg
    · rw [hout, hs] at hf
      cases hf
  · intro hf
    rw [exec_of_raises hf] at h
    cases h
    rfl

/-- Settles O23: the faults are those of `Raises`, and an instruction that raises one does nothing else. -/
theorem faultsKeepNoWriteAndHaveTheirCauses : Obligations.FaultsKeepNoWriteAndHaveTheirCauses := by
  intro i s t hs h
  refine ⟨fun hf => ?_, ?_, fun f hf => ?_⟩
  · obtain ⟨f, -, rfl⟩ | hout := exec_next h
    · exact frame_withFault s f
    · exact absurd (hout ▸ hs) hf
  · rw [← exists_raises_iff, Option.ne_none_iff_exists']
    exact exists_congr fun f => exec_fault_iff hs h
  · cases (exec_fault_iff hs h).1 hf with
    | stackOverflow a => exact .inl ⟨rfl, a, rfl⟩
    | stackUnderflow => exact .inr (.inl ⟨rfl, rfl⟩)
    | digits x => exact .inr (.inr ⟨_, rfl, .inl ⟨x, rfl, rfl⟩⟩)
    | store x => exact .inr (.inr ⟨_, rfl, .inr (.inl ⟨x, .inl rfl, rfl⟩)⟩)
    | load x => exact .inr (.inr ⟨_, rfl, .inr (.inl ⟨x, .inr rfl, rfl⟩)⟩)
    | sprite x y n => exact .inr (.inr ⟨_, rfl, .inr (.inr ⟨x, y, n, rfl, rfl⟩)⟩)

end Sys2Proof.Machine

/-! A step as a whole: the phases around the instruction, when it is refused, and what it does to PC, the timers and the frame
(R70 to R83). -/

namespace Sys2Proof.Machine

open Sys2Proof

variable {s t u : State}

/-! ### Refusals -/

/-- Pixels have no result exactly when one of them is no cell (R131, R135). -/
theorem setPixels_eq_none_iff {m : Config.WrapMode} {fb : Framebuffer} {ps : List (Nat × Nat)} :
    setPixels m fb ps = none ↔ ∃ p ∈ ps, 2047 < pixelIndex m p.1 p.2 := by
  induction ps generalizing fb with
  | nil => simp [setPixels]
  | cons p ps ih =>
    by_cases hp : pixelIndex m p.1 p.2 < 2048
    · have hrest : setPixels m fb (p :: ps) = none ↔ setPixels m (fb.toggle (pixelIndex m p.1 p.2)) ps = none := by
        simp only [setPixels, setPixel_of_lt hp]
        split <;> simp [*]
      simp [hrest, ih, Nat.not_lt.2 (Nat.le_of_lt_succ hp)]
    · have hnone : setPixels m fb (p :: ps) = none := by simp only [setPixels, setPixel_of_not_lt hp]
      exact iff_of_true hnone ⟨p, List.mem_cons_self .., Nat.not_lt.1 hp⟩

/-- In the one-step mode the set bits of a sprite fall on the indices of its pixels (R132, R135). -/
theorem litOnce_iff {x y : Reg} {n : Nibble} {k : Nat} : LitOnce s x y n k ↔
    ∃ p ∈ spritePixels (s.reg x).toNat (s.reg y).toNat (spriteRows s n), pixelIndex .singleStep p.1 p.2 = k := by
  constructor
  · rintro ⟨row, hrow, col, hcol, hbit, hk⟩
    exact ⟨(_, _), mem_spritePixels.2 ⟨row, by simpa using hrow, col, hcol, by rwa [getElem_spriteRows], rfl⟩, hk⟩
  · rintro ⟨p, hp, hk⟩
    obtain ⟨row, hrow, col, hcol, hbit, rfl⟩ := mem_spritePixels.1 hp
    rw [getElem_spriteRows] at hbit
    exact ⟨row, by simpa using hrow, col, hcol, hbit, hk⟩

/-- Only a machine with the one-step wrap draws off the cells (R131, R135). -/
theorem DrawsOffCells.singleStep {x y : Reg} {n : Nibble} (h : DrawsOffCells x y n s) :
    s.cfg.wrapMode = .singleStep := by
  cases hm : s.cfg.wrapMode with
  | full => exact absurd h (not_drawsOffCells_full hm x y n)
  | singleStep => rfl

/-- A sprite drawn off the cells has a set bit there (R135). -/
theorem DrawsOffCells.exists_litOnce {x y : Reg} {n : Nibble} (h : DrawsOffCells x y n s) :
    ∃ k, 2047 < k ∧ LitOnce s x y n k := by
  have hone := h.singleStep
  rw [DrawsOffCells, hone, setPixels_eq_none_iff] at h
  obtain ⟨p, hp, hk⟩ := h
  exact ⟨_, hk, litOnce_iff.2 ⟨p, hp, rfl⟩⟩

/-- Settles O10: a step answers a next state or is refused for a pixel off the cells, which only the one-step mode has. -/
theorem stepNeverStops : Obligations.StepNeverStops := by
  refine ⟨fun s hfull => ?_, fun s f => ?_, fun s r h => ?_⟩
  · obtain ⟨t, hstep, -⟩ | ⟨x, y, n, -, hoff, -⟩ := step_cases s
    · exact ⟨t, hstep⟩
    · exact absurd hoff (not_drawsOffCells_full hfull x y n)
  · obtain ⟨t, hstep, -⟩ | ⟨x, y, n, -, -, hstep⟩ := step_cases s <;> simp [hstep]
  · obtain ⟨t, hstep, -⟩ | ⟨x, y, n, hfetched, hoff, hstep⟩ := step_cases s
    · simp [hstep] at h
    · obtain rfl : Refusal.pixelOutsideFramebuffer = r := by simpa [hstep] using h
      exact ⟨rfl, hoff.singleStep, x, y, n, hfetched, hoff.exists_litOnce⟩

/-! ### The phases -/

/-- Two bytes that decode are a word that is looked up (R34, R50). -/
theorem lookup_of_decode {k : Config.OpKeys} {hi lo : Byte} {i : Instr} (h : decode k [hi, lo] = .ok (i, [])) :
    lookup k (wordOfBytes hi lo) = some i := by
  cases hl : lookup k (wordOfBytes hi lo) with
  | none => simp [decode, hl] at h
  | some j => simpa [decode, hl] using h

/-- Settles O12: the fetch finds the two bytes' word and the lookup the instruction they decode to. -/
theorem stepRunsTheDecodedInstruction : Obligations.StepRunsTheDecodedInstruction := by
  intro s i hmode hpc hdecode
  rw [step_of_running hmode, runningStep_of_lookup_some (fetch_inside hpc) (lookup_of_decode hdecode)]
  rfl

/-- The frame phase changes the redraw request and the frame put out (R77). -/
theorem frame_framePhase (s : State) : Frame (only [.redraw, .outFrame]) s (framePhase s) := by
  intro p hp
  cases p with
  | redraw | outFrame => exact absurd (by simp [only]) hp
  | _ => simp [Part.same]

/-- Settles O13: the advance and the closing phases by their fields, and their frames. -/
theorem phasesAroundTheInstruction : Obligations.PhasesAroundTheInstruction := by
  refine ⟨fun b s => ⟨BitVec.toNat_add _ _, rfl, rfl, rfl, frame_advance s b⟩, fun u => ⟨_, rfl, ?_⟩⟩
  have hframe : Frame (only [.dt, .st, .redraw, .outFrame, .outTone]) u (tickPhase (framePhase u)) :=
    (frame_framePhase u).seq (frame_tickPhase _) (only_le (by simp [only])) (only_le (by simp [only]))
  exact ⟨by simp [countDown_toNat], by simp [countDown_toNat], by simp, by simp, by simp, hframe⟩

/-! ### The poll -/

theorem step_of_waiting (h : s.mode = .waitingForKey) : step s = .next (waitingStep s) := by simp only [step, h]

/-- A poll puts out the tone level alone (R81). -/
@[simp] theorem waitingStep_out (s : State) : (waitingStep s).out = { tone := s.tone } := by
  cases h : s.held with
  | none => rw [waitingStep_of_none h]
  | some k => rw [waitingStep_of_held h]

/-- A poll leaves the timers (R81). -/
theorem waitingStep_timers (s : State) : (waitingStep s).dt = s.dt ∧ (waitingStep s).st = s.st := by
  cases h : s.held with
  | none => simp [waitingStep_of_none h]
  | some k => simp [waitingStep_of_held h]

/-- The key held goes to the latched register (R81, decision D14). -/
theorem reg_waitingStep {k : Nibble} (h : s.held = some k) : (waitingStep s).reg s.waitX = zextNibble k := by
  rw [waitingStep_of_held h]
  exact State.reg_setReg_self s s.waitX _

/-- A poll that ends the wait changes the latched register, the mode and the output record (R81). -/
theorem frame_waitingStep {k : Nibble} (h : s.held = some k) :
    Frame (only [.reg s.waitX, .mode, .outFault, .outFrame, .outTrace, .outTone]) s (waitingStep s) := by
  rw [waitingStep_of_held h]
  intro p hp
  cases p with
  | reg r => exact State.reg_setReg_ne s _ fun hr => hp (by simp [only, hr])
  | mode | outFault | outFrame | outTrace | outTone => exact absurd (by simp [only]) hp
  | _ => rfl

/-- Settles O19: the two cases of a poll. -/
theorem waitingStepPollsTheHeldKey : Obligations.WaitingStepPollsTheHeldKey := by
  intro s hmode
  rw [step_of_waiting hmode]
  refine ⟨fun h => ?_, fun k h => ⟨_, rfl, ?_, ?_, ?_, frame_waitingStep h⟩⟩
  · rw [waitingStep_of_none h]; rfl
  · exact (congrArg BitVec.toNat (reg_waitingStep h)).trans (BitVec.toNat_setWidth_of_le (by decide))
  · rw [waitingStep_of_held h]
  · exact waitingStep_out s

/-! ### What a Running step ran -/

/-- A step whose fetch and lookup find an instruction executes it (R71). -/
theorem step_of_fetched {i : Instr} (hmode : s.mode = .running) (h : fetched s = some i) :
    ∃ b, step s = finish (exec i (advance b s)) := by
  cases hf : fetch s with
  | error f => simp [fetched, hf] at h
  | ok op =>
    simp only [fetched, hf] at h
    exact ⟨_, by rw [step_of_running hmode, runningStep_of_lookup_some hf h]⟩

/-- A Running step that answers a next state reports a fault and keeps no write, or it executed an instruction that raised
none (R76). -/
theorem step_faults_or_executes (hmode : s.mode = .running) (hstep : step s = .next t) :
    ∃ b u, t = tickPhase (framePhase u) ∧
      ((∃ f, u = (advance b s).withFault f) ∨
        ∃ i, fetched s = some i ∧ exec i (advance b s) = .next u ∧ u.out = (advance b s).out) := by
  obtain ⟨b, u, rfl, ⟨-, hfault⟩ | ⟨i, hi, hu⟩⟩ := step_next_of_running hmode hstep
  · exact ⟨b, u, rfl, .inl hfault⟩
  · obtain ⟨f, -, hf⟩ | hout := exec_next hu
    · exact ⟨b, u, rfl, .inl ⟨f, hf⟩⟩
    · exact ⟨b, u, rfl, .inr ⟨i, hi, hu, hout⟩⟩

/-! ### The timers -/

/-- What an instruction does to the timers: it leaves each but the one it writes (R78, R144, R145). -/
theorem exec_timers {i : Instr} (h : exec i s = .next t) :
    (∀ x, i = .ldDtX x → t.dt = s.reg x) ∧ ((∀ x, i ≠ .ldDtX x) → t.dt = s.dt) ∧
    (∀ x, i = .ldStX x → t.st = s.reg x) ∧ ((∀ x, i ≠ .ldStX x) → t.st = s.st) := by
  refine ⟨?_, fun hi => ?_, ?_, fun hi => ?_⟩
  · rintro x rfl; cases h; rfl
  · by_contra hdt
    obtain ⟨x, hx⟩ := writes_of_not_same h (p := .dt) hdt
    exact hi x hx
  · rintro x rfl; cases h; rfl
  · by_contra hst
    obtain ⟨x, hx⟩ := writes_of_not_same h (p := .st) hst
    exact hi x hx

/-- Settles O16: the tick counts down what the execute phase left in the timers. -/
theorem timersTickOncePerRunningStep : Obligations.TimersTickOncePerRunningStep := by
  intro s t hstep
  refine ⟨fun hmode => ?_, fun hmode => ?_⟩
  · rw [step_of_waiting hmode] at hstep
    cases hstep
    exact waitingStep_timers s
  · obtain ⟨b, u, rfl, ⟨hnone, f, rfl⟩ | ⟨i, hi, hu⟩⟩ := step_next_of_running hmode hstep
    · simp [hnone, countDown_toNat]
    · obtain ⟨hdtx, hdt, hstx, hst⟩ := exec_timers hu
      simp only [tickPhase_dt, tickPhase_st, framePhase_dt, framePhase_st, countDown_toNat, hi, Option.some.injEq, ne_eq]
      exact ⟨fun x hx => by rw [hdtx x hx]; rfl, fun hx => by rw [hdt hx]; rfl, fun x hx => by rw [hstx x hx]; rfl,
        fun hx => by rw [hst hx]; rfl⟩

/-! ### PC -/

/-- Settles O22: a fault keeps the advanced PC, and so does an instruction that is none of the writers of PC. -/
theorem pcAdvancesByTwoUnlessTransferred : Obligations.PcAdvancesByTwoUnlessTransferred := by
  intro s t hmode hstep hwhy
  obtain ⟨b, u, rfl, ⟨f, rfl⟩ | ⟨i, hi, hu, hout⟩⟩ := step_faults_or_executes hmode hstep
  · simp [BitVec.toNat_add]
  · obtain ⟨hret, hjp, hcall, hjpV0, hseKk, hsneKk, hseXy, hsneXy, hskp, hsknp⟩ := hwhy.resolve_right (by simp [hout]) i hi
    have hstays : ¬ i.Transfers := by
      simp [Instr.Transfers, hret, hjp, hcall, hjpV0, hseKk, hsneKk, hseXy, hsneXy, hskp, hsknp]
    have hpc : u.pc = s.pc + 2 := by_contra fun hne => hstays (writes_of_not_same hu (p := .pc) hne)
    simp [hpc, BitVec.toNat_add]

/-! ### The frame -/

/-- An instruction that raises no fault requests a redraw, where none was requested, exactly when it draws (R20, R77). -/
theorem exec_redraw_iff {i : Instr} (hs : s.redraw = false) (h : exec i s = .next t) (hout : t.out.fault = none) :
    t.redraw = true ↔ i.Draws := by
  constructor
  · intro hredraw
    exact writes_of_not_same h (p := .redraw) (by simp [Part.same, hs, hredraw])
  · rintro (rfl | ⟨x, y, n, rfl⟩)
    · cases h; rfl
    · obtain ⟨f, -, rfl⟩ | ⟨hredraw, -⟩ := execDrw_next h
      · cases hout
      · exact hredraw

/-- Where no frame was put out yet, the closing phases put one out exactly on a request, and it is the cells (R77, R134). -/
theorem frame_put_out (hu : u.out.frame = none) :
    (∀ f, (tickPhase (framePhase u)).out.frame = some f → f = u.fb) ∧
    ((tickPhase (framePhase u)).out.frame ≠ none ↔ u.redraw = true) := by
  cases h : u.redraw <;> simp [hu, h]

/-- Settles O17: the frame phase emits the cells where the execute phase requested a redraw, which is what CLS and DRW do. -/
theorem frameIsEmittedByClsAndDrwOnly : Obligations.FrameIsEmittedByClsAndDrwOnly := by
  intro s t hredraw hstep
  refine ⟨(stepsTo_of_step hstep).redraw hredraw, ?_⟩
  cases hmode : s.mode with
  | waitingForKey =>
    rw [step_of_waiting hmode] at hstep
    cases hstep
    simp
  | running =>
    obtain ⟨b, u, rfl, ⟨f, rfl⟩ | ⟨i, hi, hu, hout⟩⟩ := step_faults_or_executes hmode hstep
    · simp [hredraw]
    · have hdraws : u.redraw = true ↔ i.Draws := exec_redraw_iff (s := advance b s) hredraw hu (by simp [hout])
      obtain ⟨hcells, hput⟩ := frame_put_out (u := u) (by simp [hout])
      refine ⟨by simpa using hcells, hput.trans (hdraws.trans ?_)⟩
      simp [hout, hi, Instr.Draws]

/-! ### The self-jump -/

/-- Settles O21: the jump undoes the advance, no redraw is requested, and timers at 0 stay there. -/
theorem selfJumpIsAFixedPoint : Obligations.SelfJumpIsAFixedPoint := by
  intro s nnn hmode hredraw hpc hfetched hdt hst
  obtain ⟨b, hstep⟩ := step_of_fetched hmode hfetched
  have hidle : framePhase ((advance b s).setPc (zextAddr nnn)) = (advance b s).setPc (zextAddr nnn) :=
    framePhase_idle hredraw
  refine ⟨tickPhase ((advance b s).setPc (zextAddr nnn)), ?_, ?_, rfl, rfl⟩
  · rw [hstep]
    simp only [exec, execJp, finish, hidle]
  · have htarget : zextAddr nnn = s.pc :=
      BitVec.eq_of_toNat_eq ((BitVec.toNat_setWidth_of_le (by decide)).trans hpc.symm)
    have hdt0 : countDown s.dt = s.dt := by rw [hdt]; rfl
    have hst0 : countDown s.st = s.st := by rw [hst]; rfl
    have hfields (o : StepOutput) :
        { s with pc := zextAddr nnn, dt := countDown s.dt, st := countDown s.st, out := o } = { s with out := o } := by
      rw [htarget, hdt0, hst0]
    exact hfields _

end Sys2Proof.Machine

/-! The word of an instruction by its format, under the spec's default `OPKEYS` (R52, R54). -/

namespace Sys2Proof.Laws

open Sys2Proof Sys2Proof.Config
open Sys2Proof.Config.OpKeys (conventional)

theorem wellFormed_conventional : conventional.wellFormed = true := decodeOfEncodeIsTheInstruction.2

/-- A word that is an instruction's key with its operands in their places selects the instruction (R54). -/
theorem lookup_of_key_or {i : Instr} {op : Word} (h : conventional.keyOf i ||| i.operandBits = op) :
    lookup conventional op = some i := by
  rw [← h]
  exact lookup_encodeWord wellFormed_conventional i

/-- Format A: the key's leading nibble, then the address. -/
theorem lookup_a {i : Instr} {a : BitVec 4} {nnn : Addr} (hkey : conventional.keyOf i = a ++ 0#12)
    (hops : i.operandBits = 0#4 ++ nnn) : lookup conventional (a ++ nnn : Word) = some i := by
  apply lookup_of_key_or
  rw [hkey, hops, BitVec.or_append, BitVec.or_zero, BitVec.zero_or]

/-- Format XK: the key's leading nibble, then the register and the byte. -/
theorem lookup_xk {i : Instr} {a : BitVec 4} {x : Reg} {kk : Byte} (hkey : conventional.keyOf i = a ++ 0#4 ++ 0#8)
    (hops : i.operandBits = 0#4 ++ x ++ kk) : lookup conventional (a ++ x ++ kk : Word) = some i := by
  apply lookup_of_key_or
  rw [hkey, hops, BitVec.or_append, BitVec.or_append, BitVec.or_zero, BitVec.zero_or, BitVec.zero_or]

/-- Format XY: the key's leading nibble, the two registers, then the key's trailing nibble. -/
theorem lookup_xy {i : Instr} {a n : BitVec 4} {x y : Reg} (hkey : conventional.keyOf i = a ++ 0#4 ++ 0#4 ++ n)
    (hops : i.operandBits = 0#4 ++ x ++ y ++ 0#4) : lookup conventional (a ++ x ++ y ++ n : Word) = some i := by
  apply lookup_of_key_or
  rw [hkey, hops, BitVec.or_append, BitVec.or_append, BitVec.or_append, BitVec.or_zero, BitVec.or_zero, BitVec.zero_or,
    BitVec.zero_or]

end Sys2Proof.Laws

/-! Control transfer: the jumps, CALL and RET, and the skips on registers (R90 to R98). -/

namespace Sys2Proof.Machine

open Sys2Proof

variable {s t : State}

/-! ### The jumps -/

@[simp] theorem toNat_zextAddr (nnn : Addr) : (zextAddr nnn).toNat = nnn.toNat :=
  BitVec.toNat_setWidth_of_le (by decide)

@[simp] theorem toNat_zextByte (b : Byte) : (zextByte b).toNat = b.toNat :=
  BitVec.toNat_setWidth_of_le (by decide)

/-- A byte and a 12-bit address add up without a wrap at 16 bits (R97). -/
theorem toNat_zextByte_add_zextAddr (b : Byte) (nnn : Addr) :
    (zextByte b + zextAddr nnn).toNat = b.toNat + nnn.toNat := by
  have hb : b.toNat < 256 := b.isLt
  have hn : nnn.toNat < 4096 := nnn.isLt
  rw [BitVec.toNat_add_of_lt (by simp only [toNat_zextByte, toNat_zextAddr]; omega), toNat_zextByte, toNat_zextAddr]

/-- Settles O26: both jumps set PC alone, and the sum of JP V0,nnn fits 16 bits. -/
theorem jumpsSetPc : Obligations.JumpsSetPc := fun nnn s =>
  ⟨Laws.lookup_a rfl rfl, ⟨_, rfl, toNat_zextAddr nnn, frame_setPc s _⟩,
    Laws.lookup_a rfl rfl, ⟨_, rfl, toNat_zextByte_add_zextAddr (s.reg 0) nnn, frame_setPc s _⟩⟩

/-! ### CALL and RET -/

/-- CALL where the push finds a slot (R92). -/
theorem exec_call_of_push (nnn : Addr) (h : s.push s.pc = some t) :
    exec (.call nnn) s = .next (t.setPc (zextAddr nnn)) := by
  simp only [exec, execCall, h]

/-- RET where there is something to pop (R90). -/
theorem exec_ret_of_pop {w : Word} (h : s.pop = some (w, t)) : exec .ret s = .next (t.setPc w) := by
  simp only [exec, execRet, h]

/-- Settles O27: with a free slot the push, then the target; with none the fault alone. -/
theorem callPushesTheReturnAddress : Obligations.CallPushesTheReturnAddress := by
  intro nnn s
  refine ⟨Laws.lookup_a rfl rfl, fun hfree => ?free,
    fun hfull => ⟨_, exec_of_raises (.stackOverflow nnn hfull), rfl, frame_withFault s _⟩⟩
  have hpush := push_free s.pc hfree
  exact ⟨_, exec_call_of_push nnn hpush, toNat_zextAddr nnn, rfl, Vector.getElem_set_self hfree,
    (frame_push hfree hpush).seq (frame_setPc _ _) (only_le (by simp [only])) (only_le (by simp [only]))⟩

/-- A pop from a stack of k + 1 occupied slots reads slot k (R14, decision D13). -/
theorem pop_of_sp_eq_succ {k : Nat} (hk : k < 16) (h : s.sp.val = k + 1) :
    s.pop = some (s.stack[k], { s with sp := ⟨k, by omega⟩ }) := by
  simp only [pop_occupied (s := s) (by omega), h, Nat.add_sub_cancel]

/-- Settles O28: from an occupied stack the pop, into PC; from an empty one the fault alone. -/
theorem returnPopsIntoPc : Obligations.ReturnPopsIntoPc := by
  refine ⟨rfl, fun s => ⟨fun k hk hsp => ?occupied,
    fun hempty => ⟨_, exec_of_raises (.stackUnderflow hempty), rfl, frame_withFault s _⟩⟩⟩
  have hpop := pop_of_sp_eq_succ hk hsp
  exact ⟨_, exec_ret_of_pop hpop, rfl, rfl,
    (frame_pop hpop).seq (frame_setPc _ _) (only_le (by simp [only])) (only_le (by simp [only]))⟩

/-- A piece that might have changed and came out the same can be left out of what may change. -/
theorem Frame.of_same {may may' : Part → Prop} (h : Frame may s t) (hsame : ∀ p, may p → may' p ∨ p.same s t) :
    Frame may' s t := by
  intro p hp
  by_cases hmay : may p
  · exact (hsame p hmay).resolve_left hp
  · exact h p hmay

/-- Settles O29, from O27 and O28: the slot CALL fills is the one RET reads, so PC and SP come back. -/
theorem callThenReturnComesBack : Obligations.CallThenReturnComesBack := by
  intro nnn s hfree
  obtain ⟨-, hcall, -⟩ := callPushesTheReturnAddress nnn s
  obtain ⟨t, ht, -, htsp, htslot, htframe⟩ := hcall hfree
  obtain ⟨hret, -⟩ := returnPopsIntoPc.2 t
  obtain ⟨u, hu, hupc, husp, huframe⟩ := hret s.sp.val hfree htsp
  have hpc : u.pc = s.pc := hupc.trans htslot
  have hsp : u.sp = s.sp := Fin.ext husp
  have hframe : Frame (only [.pc, .sp, .slot ⟨s.sp.val, hfree⟩]) s u :=
    htframe.trans (huframe.mono (only_le (by simp [only])))
  exact ⟨t, u, ht, hu, hpc, hframe.of_same (only_le (by simp [only, Part.same, hpc, hsp]))⟩

/-! ### The skips -/

/-- A skip under a condition changes PC alone: two further, mod 65536, exactly when the condition holds (R98, decision
D11). -/
theorem skipIf_spec {c : Bool} {P : Prop} [Decidable P] (hc : c = true ↔ P) :
    ∃ t, (.next (s.skipIf c) : Result) = .next t ∧ Frame (only [.pc]) s t ∧
      t.pc.toNat = (if P then (s.pc.toNat + 2) % 65536 else s.pc.toNat) := by
  refine ⟨_, rfl, frame_skipIf s c, ?_⟩
  by_cases hP : P
  · simp [State.skipIf_eq, hc.2 hP, hP, BitVec.toNat_add]
  · simp [State.skipIf_eq, mt hc.1 hP, hP]

theorem beq_iff_toNat_eq {a b : Byte} : (a == b) = true ↔ a.toNat = b.toNat :=
  beq_iff_eq.trans BitVec.toNat_inj.symm

theorem bne_iff_toNat_ne {a b : Byte} : (a != b) = true ↔ a.toNat ≠ b.toNat :=
  bne_iff_ne.trans BitVec.toNat_inj.symm.not

/-- Settles O30: each is a skip under the comparison of its two bytes. -/
theorem registerSkips : Obligations.RegisterSkips := fun _ _ _ _ =>
  ⟨Laws.lookup_xk rfl rfl, skipIf_spec beq_iff_toNat_eq,
    Laws.lookup_xk rfl rfl, skipIf_spec bne_iff_toNat_ne,
    Laws.lookup_xy rfl rfl, skipIf_spec beq_iff_toNat_eq,
    Laws.lookup_xy rfl rfl, skipIf_spec bne_iff_toNat_ne⟩

end Sys2Proof.Machine

/-! The words of SHR and SHL, whatever their y field (R54, R56). -/

namespace Sys2Proof.Laws

open Sys2Proof Sys2Proof.Config
open Sys2Proof.Config.OpKeys (conventional)

/-- Format XY under a row that reads x alone: the y field is ignored (R56). -/
theorem lookup_xy_ignoring_y {c : Reg → Instr} {a n : BitVec 4}
    (hrow : ⟨a ++ 0#4 ++ 0#4 ++ n, fun f => c f.x⟩ ∈ tier3 conventional) (x y : Reg) :
    lookup conventional (a ++ x ++ y ++ n : Word) = some (c x) := by
  have hmem : (mask3, ⟨a ++ 0#4 ++ 0#4 ++ n, fun f => c f.x⟩) ∈ maskedRows conventional := by simp [maskedRows, hrow]
  rw [lookup_of_match wellFormed_conventional hmem (and_mask3 a x y n)]
  exact congrArg (some ∘ c) (fieldsOf_xyn a x y n).1

end Sys2Proof.Laws

/-! The register ALU: loads and bitwise operations, sums, differences, shifts and RND (R100 to R111, R113). -/

namespace Sys2Proof.Machine

open Sys2Proof
open Sys2Proof.Config.OpKeys (conventional)

/-! ### The instructions that write Vx alone -/

/-- A write of Vx: the value in Vx, and every other piece of the state as it was. -/
theorem setReg_spec (s : State) (x : Reg) (b : Byte) :
    ∃ t, (.next (s.setReg x b) : Result) = .next t ∧ t.reg x = b ∧ Frame (only [.reg x]) s t :=
  ⟨_, rfl, State.reg_setReg_self s x b, frame_setReg s x b⟩

/-- Settles O31: each is a write of Vx. -/
theorem loadsAndBitwise : Obligations.LoadsAndBitwise := fun x _ _ s =>
  ⟨Laws.lookup_xk rfl rfl, setReg_spec s x _, Laws.lookup_xy rfl rfl, setReg_spec s x _,
    Laws.lookup_xy rfl rfl, setReg_spec s x _, Laws.lookup_xy rfl rfl, setReg_spec s x _,
    Laws.lookup_xy rfl rfl, setReg_spec s x _⟩

/-- Settles O32: a write of Vx, and bytes add up mod 256. -/
theorem addImmediateWraps : Obligations.AddImmediateWraps := by
  intro x kk s
  obtain ⟨t, ht, hx, hframe⟩ := setReg_spec s x (s.reg x + kk)
  exact ⟨Laws.lookup_xk rfl rfl, t, ht, by rw [hx, BitVec.toNat_add], hframe⟩

/-! ### The instructions that write VF, then Vx -/

/-- A write of VF and then of Vx: the result in Vx, the flag in VF unless x is 15, and every other piece of the state as it
was (R113). -/
theorem setFlagThenReg_spec (s : State) (c : Bool) (x : Reg) (b : Byte) :
    ∃ t, (.next (s.setFlagThenReg c x b) : Result) = .next t ∧ t.reg x = b ∧ (x ≠ 15 → t.reg 15 = flagByte c) ∧
      Frame (only [.reg x, .reg 15]) s t := by
  refine ⟨_, rfl, ?_, fun hx => ?_, frame_setFlagThenReg s c x b⟩
  · rw [State.reg_setFlagThenReg, if_pos rfl]
  · rw [State.reg_setFlagThenReg, if_neg hx.symm, if_pos rfl]

theorem flagByte_decide (P : Prop) [Decidable P] : flagByte (decide P) = if P then 1 else 0 := by
  simp [flagByte]

theorem toNat_flagByte (c : Bool) : (flagByte c).toNat = c.toNat := by
  cases c <;> rfl

/-- Settles O33: bytes add up mod 256, and the flag is the carry. -/
theorem addRegistersSetsCarry : Obligations.AddRegistersSetsCarry := by
  intro x y s
  obtain ⟨t, ht, hx, hflag, hframe⟩ :=
    setFlagThenReg_spec s (carryFlag (s.reg x) (s.reg y)) x (s.reg x + s.reg y)
  exact ⟨Laws.lookup_xy rfl rfl, t, ht, by rw [hx, BitVec.toNat_add],
    fun h15 => (hflag h15).trans (flagByte_decide _), hframe⟩

/-- The difference of two bytes is that of their values mod 256. -/
theorem toNat_sub_emod (a b : Byte) : ((a - b).toNat : Int) = (a.toNat - b.toNat : Int) % 256 := by
  have hb : b.toNat < 256 := b.isLt
  rw [BitVec.toNat_sub]
  omega

/-- What SUB and SUBN do, with the difference `a - b` and the flag of `a` above `b` (R107, R109). -/
theorem subtract_spec (s : State) (x : Reg) (a b : Byte) :
    ∃ t, (.next (s.setFlagThenReg (greaterFlag a b) x (a - b)) : Result) = .next t ∧
      ((t.reg x).toNat : Int) = (a.toNat - b.toNat : Int) % 256 ∧
      (x ≠ 15 → t.reg 15 = if b.toNat < a.toNat then 1 else 0) ∧ Frame (only [.reg x, .reg 15]) s t := by
  obtain ⟨t, ht, hx, hflag, hframe⟩ := setFlagThenReg_spec s (greaterFlag a b) x (a - b)
  exact ⟨t, ht, by rw [hx, toNat_sub_emod], fun h15 => (hflag h15).trans (flagByte_decide _), hframe⟩

/-- Settles O34: SUBN is SUB with the operands exchanged. -/
theorem subtractionsSetGreater : Obligations.SubtractionsSetGreater := fun x y s =>
  ⟨Laws.lookup_xy rfl rfl, subtract_spec s x (s.reg x) (s.reg y),
    Laws.lookup_xy rfl rfl, subtract_spec s x (s.reg y) (s.reg x)⟩

theorem toNat_lowBitFlag (a : Byte) : (lowBitFlag a).toNat = a.toNat % 2 :=
  (Nat.toNat_testBit a.toNat 0).trans (by rw [Nat.pow_zero, Nat.div_one])

theorem toNat_highBitFlag (a : Byte) : (highBitFlag a).toNat = a.toNat / 128 := by
  have ha : a.toNat < 256 := a.isLt
  have hbit : (highBitFlag a).toNat = a.toNat / 2 ^ 7 % 2 := Nat.toNat_testBit a.toNat 7
  omega

theorem toNat_ushiftRight_one (a : Byte) : (a >>> 1).toNat = a.toNat / 2 := by
  rw [BitVec.toNat_ushiftRight, Nat.shiftRight_one]

theorem toNat_shiftLeft_one (a : Byte) : (a <<< 1).toNat = 2 * a.toNat % 256 := by
  rw [BitVec.toNat_shiftLeft, Nat.shiftLeft_eq, Nat.pow_one, Nat.mul_comm]

/-- Settles O35: a shift by one halves or doubles the byte, and the flag is the bit that it loses. -/
theorem shiftsSetTheBitShiftedOut : Obligations.ShiftsSetTheBitShiftedOut := by
  intro x y s
  refine ⟨Laws.lookup_xy_ignoring_y (by simp [tier3, conventional]) x y, ?_,
    Laws.lookup_xy_ignoring_y (by simp [tier3, conventional]) x y, ?_⟩
  · obtain ⟨t, ht, hx, hflag, hframe⟩ := setFlagThenReg_spec s (lowBitFlag (s.reg x)) x (s.reg x >>> 1)
    exact ⟨t, ht, by rw [hx, toNat_ushiftRight_one],
      fun h15 => by rw [hflag h15, toNat_flagByte, toNat_lowBitFlag], hframe⟩
  · obtain ⟨t, ht, hx, hflag, hframe⟩ := setFlagThenReg_spec s (highBitFlag (s.reg x)) x (s.reg x <<< 1)
    exact ⟨t, ht, by rw [hx, toNat_shiftLeft_one],
      fun h15 => by rw [hflag h15, toNat_flagByte, toNat_highBitFlag], hframe⟩

/-! ### RND -/

theorem reg_rndWith (r : Byte) (x : Reg) (kk : Byte) (s : State) : (rndWith r x kk s).reg x = r &&& kk :=
  State.reg_setReg_self s x (r &&& kk)

/-- A masked byte has no bit outside its mask. -/
theorem and_mask_and_not_mask (r kk : Byte) : r &&& kk &&& ~~~kk = 0 := by
  rw [BitVec.and_assoc, BitVec.and_not_self]
  exact BitVec.and_zero

/-- Settles O36: a write of the masked byte, whatever the byte is. -/
theorem randomIsMasked : Obligations.RandomIsMasked := fun x kk s =>
  ⟨Laws.lookup_xk rfl rfl,
    ⟨_, rfl, reg_rndWith _ x kk s, by rw [reg_rndWith, and_mask_and_not_mask], rfl, frame_rndWith s _ x kk⟩,
    fun r => reg_rndWith r x kk s⟩

end Sys2Proof.Machine

/-! The words of format X (R52, R54). -/

namespace Sys2Proof.Laws

open Sys2Proof Sys2Proof.Config
open Sys2Proof.Config.OpKeys (conventional)

/-- Format X: the key's leading nibble, then the register, then the key's trailing byte. -/
theorem lookup_x {i : Instr} {a : BitVec 4} {b : BitVec 8} {x : Reg} (hkey : conventional.keyOf i = a ++ 0#4 ++ b)
    (hops : i.operandBits = 0#4 ++ x ++ 0#8) : lookup conventional (a ++ x ++ b : Word) = some i := by
  apply lookup_of_key_or
  rw [hkey, hops, BitVec.or_append, BitVec.or_append, BitVec.or_zero, BitVec.or_zero, BitVec.zero_or]

end Sys2Proof.Laws

/-! The index register, the decimal digits and the block transfers (R120 to R126). -/

namespace Sys2Proof.Machine

open Sys2Proof

variable {s : State}

/-! ### The instructions that write I alone -/

/-- A write of I: its value, and every other piece of the state as it was. -/
theorem setI_spec (s : State) {w : Word} {n : Nat} (hw : w.toNat = n) :
    ∃ t, (.next (s.setI w) : Result) = .next t ∧ t.i.toNat = n ∧ Frame (only [.i]) s t :=
  ⟨_, rfl, hw, frame_setI s w⟩

/-- Five times a byte fits 16 bits (R122). -/
theorem toNat_five_mul_zextByte (b : Byte) : (5 * zextByte b).toNat = 5 * b.toNat := by
  have hb : b.toNat < 256 := b.isLt
  have hmul : (5 * zextByte b).toNat = 5 * b.toNat % 65536 := by rw [BitVec.toNat_mul, toNat_zextByte]; rfl
  omega

/-- Settles O37: each is a write of I with a value that fits 16 bits. -/
theorem indexRegisterLoads : Obligations.IndexRegisterLoads := fun x nnn s =>
  ⟨Laws.lookup_a rfl rfl, setI_spec s (toNat_zextAddr nnn),
    Laws.lookup_x rfl rfl, setI_spec s (toNat_five_mul_zextByte (s.reg x))⟩

/-- Settles O38: a write of I, and 16-bit words add up mod 65536. -/
theorem addToIndexWraps : Obligations.AddToIndexWraps := fun x s =>
  have hsum : (s.i + zextByte (s.reg x)).toNat = (s.i.toNat + (s.reg x).toNat) % 65536 := by
    rw [BitVec.toNat_add, toNat_zextByte]
  ⟨Laws.lookup_x rfl rfl, setI_spec s hsum⟩

/-! ### Stores from I on -/

/-- An instruction with a cause to fault reports that fault, and nothing else changes (R76). -/
theorem exec_raises_spec {i : Instr} {f : Fault} (h : Raises s i f) :
    ∃ t, exec i s = .next t ∧ t.out.fault = some f ∧ Frame (only [.outFault]) s t :=
  ⟨_, exec_of_raises h, rfl, frame_withFault s f⟩

/-- Byte k of a block stored from I on stands at I + k (R126). -/
theorem byte_storeBytes_dataAddr {bs : List Byte} {k : Nat} (h : k < bs.length) :
    (s.storeBytes (dataAddr s 0) bs).byte (dataAddr s k) = bs[k] :=
  State.byte_storeBytes_inside h

/-- A block stored from I on changes the bytes it stores (R40, R126). -/
theorem frame_storeBytes_dataAddr (s : State) (bs : List Byte) :
    Frame (fun p => ∃ k < bs.length, p = .mem (dataAddr s k)) s (s.storeBytes (dataAddr s 0) bs) :=
  frame_storeBytes s _ bs

theorem toNat_byte_ofNat {n : Nat} (h : n < 256) : (BitVec.ofNat 8 n).toNat = n :=
  (BitVec.toNat_ofNat n 8).trans (Nat.mod_eq_of_lt h)

/-- The digits as numbers: each fits a byte (R123). -/
theorem toNat_decimalDigits (b : Byte) :
    (decimalDigits b)[0].toNat = b.toNat / 100 ∧ (decimalDigits b)[1].toNat = b.toNat / 10 % 10 ∧
      (decimalDigits b)[2].toNat = b.toNat % 10 := by
  have hb : b.toNat < 256 := b.isLt
  exact ⟨toNat_byte_ofNat (by omega), toNat_byte_ofNat (by omega), toNat_byte_ofNat (by omega)⟩

/-- LD B,x in range stores the digits of Vx from I on (R123). -/
theorem exec_ldBX_inside {x : Reg} (h : dataAddr s 2 ≤ 4095) :
    exec (.ldBX x) s = .next (s.storeBytes (dataAddr s 0) (decimalDigits (s.reg x))) :=
  guardRange_inside (Nat.lt_succ_of_le h)

/-- Settles O39: in range a store of the three digits from I on, else the fault alone. -/
theorem decimalDigitsAreStored : Obligations.DecimalDigitsAreStored := by
  intro x s
  refine ⟨Laws.lookup_x rfl rfl, fun hin => ?_, fun hout => exec_raises_spec (.digits x (Nat.not_lt.2 hout))⟩
  obtain ⟨h100, h10, h1⟩ := toNat_decimalDigits (s.reg x)
  refine ⟨_, exec_ldBX_inside hin, ?_, ?_, ?_, frame_storeBytes_dataAddr s (decimalDigits (s.reg x))⟩
  · rw [byte_storeBytes_dataAddr (by simp), h100]
  · rw [byte_storeBytes_dataAddr (by simp), h10]
  · rw [byte_storeBytes_dataAddr (by simp), h1]

/-- Settles O40: in range a store of V0 to Vx from I on, else the fault alone. -/
theorem blockStore : Obligations.BlockStore := by
  intro x s
  refine ⟨Laws.lookup_x rfl rfl, fun hin => ?_, fun hout => exec_raises_spec (.store x (Nat.not_lt.2 hout))⟩
  refine ⟨_, exec_storeX_inside hin, fun r hr => byte_storeBytes_regsThrough s _ hr, ?_⟩
  simpa only [length_regsThrough, Nat.lt_succ_iff] using frame_storeBytes_dataAddr s (s.regsThrough x)

/-! ### Loads from I on -/

/-- LD x,[I] in range loads V0 to Vx from I on (R125). -/
theorem exec_loadX_inside {x : Reg} (h : dataAddr s x.toNat ≤ 4095) :
    exec (.loadX x) s = .next (s.loadRegsThrough x) :=
  guardRange_inside (Nat.lt_succ_of_le h)

/-- Settles O41: in range a load of V0 to Vx from I on, else the fault alone. -/
theorem blockLoad : Obligations.BlockLoad := by
  intro x s
  refine ⟨Laws.lookup_x rfl rfl, fun hin => ?_, fun hout => exec_raises_spec (.load x (Nat.not_lt.2 hout))⟩
  exact ⟨_, exec_loadX_inside hin, fun r hr => (reg_loadRegsThrough x r).trans (if_pos hr), frame_loadRegsThrough s x⟩

/-- Settles O42: the store leaves I, a change of the registers leaves I and memory, and so the load reads at I + r the byte
that the store has put there. -/
theorem blockStoreThenLoadRestores : Obligations.BlockStoreThenLoadRestores := by
  intro x s v hin
  refine ⟨_, _, exec_storeX_inside hin, exec_loadX_inside hin, fun r => ?_⟩
  rw [reg_loadRegsThrough]
  by_cases hr : r.toNat ≤ x.toNat
  · rw [if_pos hr, if_pos hr]
    exact byte_storeBytes_regsThrough s _ hr
  · rw [if_neg hr, if_neg hr]
    rfl

end Sys2Proof.Machine

/-! The words of format XYN, and the one word of CLS (R52, R54). -/

namespace Sys2Proof.Laws

open Sys2Proof Sys2Proof.Config
open Sys2Proof.Config.OpKeys (conventional)

/-- Format XYN: the key's leading nibble, then the two registers and the count. -/
theorem lookup_xyn {i : Instr} {a n : BitVec 4} {x y : Reg} (hkey : conventional.keyOf i = a ++ 0#4 ++ 0#4 ++ 0#4)
    (hops : i.operandBits = 0#4 ++ x ++ y ++ n) : lookup conventional (a ++ x ++ y ++ n : Word) = some i := by
  apply lookup_of_key_or
  rw [hkey, hops, BitVec.or_append, BitVec.or_append, BitVec.or_append, BitVec.or_zero, BitVec.zero_or, BitVec.zero_or,
    BitVec.zero_or]

/-- But for SHR and SHL, an instruction has one word (R56). -/
theorem lookup_conventional_iff {i : Instr} {op : Word} (hshr : ∀ x, i ≠ .shr x) (hshl : ∀ x, i ≠ .shl x) :
    lookup conventional op = some i ↔ op = encodeWord conventional i := by
  constructor
  · intro h
    exact ((decodedWordIsTheEncoding conventional wellFormed_conventional op i h).2 hshr hshl).symm
  · rintro rfl
    exact lookup_encodeWord wellFormed_conventional i

end Sys2Proof.Laws

/-! The display: CLS, `SetPixel`, and DRW in both wrap modes (R130 to R135). -/

namespace Sys2Proof.Machine

open Sys2Proof

variable {s t : State} {m m' : Config.WrapMode} {fb : Framebuffer} {x y : Reg} {n : Nibble}

/-! ### CLS -/

/-- Settles O44: CLS is a redraw with the clear cells, which the frame phase of its step puts out. -/
theorem clearScreen : Obligations.ClearScreen := by
  refine ⟨fun op => Laws.lookup_conventional_iff nofun nofun, fun s => ?_, fun s hmode hfetched => ?_⟩
  · exact ⟨_, rfl, Framebuffer.cell_clear, rfl, frame_redrawWith s Framebuffer.clear⟩
  · obtain ⟨b, hstep⟩ := step_of_fetched hmode hfetched
    exact ⟨_, Framebuffer.clear, hstep, rfl, Framebuffer.cell_clear⟩

/-! ### SetPixel -/

/-- `SetPixel` on a cell inverts it and no other, and answers whether it was on; a second one restores every cell and gives the
other answer (R131). -/
theorem setPixel_spec (fb : Framebuffer) {px py : Nat} (h : pixelIndex m px py < 2048) :
    ∃ fb' e, setPixel m fb px py = some (fb', e) ∧
      fb'.cell (pixelIndex m px py) = !fb.cell (pixelIndex m px py) ∧
      (e = true ↔ fb'.cell (pixelIndex m px py) = false) ∧
      (∀ k, k ≠ pixelIndex m px py → fb'.cell k = fb.cell k) ∧
      (∃ fb'', setPixel m fb' px py = some (fb'', !e) ∧ ∀ k, fb''.cell k = fb.cell k) := by
  have hself (f : Framebuffer) : (f.toggle (pixelIndex m px py)).cell (pixelIndex m px py) = !f.cell (pixelIndex m px py) :=
    (cell_toggle h _).trans (if_pos rfl)
  have hother (f : Framebuffer) (k : Nat) (hk : k ≠ pixelIndex m px py) :
      (f.toggle (pixelIndex m px py)).cell k = f.cell k := (cell_toggle h k).trans (if_neg hk)
  refine ⟨_, _, setPixel_of_lt h, hself fb, by rw [hself, Bool.not_eq_false'], hother fb,
    _, by rw [setPixel_of_lt h, hself], fun k => ?_⟩
  by_cases hk : k = pixelIndex m px py
  · rw [hk, hself, hself, Bool.not_not]
  · rw [hother _ k hk, hother fb k hk]

/-- Settles O45: the full wrap always names a cell. -/
theorem setPixelTogglesOneWrappedCell : Obligations.SetPixelTogglesOneWrappedCell := fun fb px py =>
  setPixel_spec fb (pixelIndex_full_lt px py)

/-! ### The cells of a sprite -/

/-- The cells the set bits of the sprite of DRW x,y,n fall on in a wrap mode (R131, R132, R135); an index above 2047 is no
cell. -/
def spriteCells (m : Config.WrapMode) (x y : Reg) (n : Nibble) (s : State) : List Nat :=
  indices m (spritePixels (s.reg x).toNat (s.reg y).toNat (spriteRows s n))

/-- The pixels of a sprite in memory, by row and column (R132). -/
theorem mem_spritePixels_spriteRows {px py : Nat} {q : Nat × Nat} : q ∈ spritePixels px py (spriteRows s n) ↔
    ∃ row < n.toNat, ∃ col < 8, (s.byte (dataAddr s row)).getLsbD (7 - col) = true ∧ q = (px + col, py + row) := by
  simp only [mem_spritePixels, length_spriteRows, getElem_spriteRows, exists_prop]

/-- A cell is the sprite's exactly when one of its set bits falls there. -/
theorem mem_spriteCells {k : Nat} : k ∈ spriteCells m x y n s ↔
    ∃ row < n.toNat, ∃ col < 8, (s.byte (dataAddr s row)).getLsbD (7 - col) = true ∧
      pixelIndex m ((s.reg x).toNat + col) ((s.reg y).toNat + row) = k := by
  simp only [spriteCells, indices, List.mem_map, mem_spritePixels_spriteRows]
  constructor
  · rintro ⟨_, ⟨row, hrow, col, hcol, hbit, rfl⟩, hk⟩
    exact ⟨row, hrow, col, hcol, hbit, hk⟩
  · rintro ⟨row, hrow, col, hcol, hbit, hk⟩
    exact ⟨_, ⟨row, hrow, col, hcol, hbit, rfl⟩, hk⟩

theorem lit_iff_mem {k : Nat} : Lit s x y n k ↔ k ∈ spriteCells .full x y n s :=
  (mem_spriteCells (m := .full)).symm

theorem litOnce_iff_mem {k : Nat} : LitOnce s x y n k ↔ k ∈ spriteCells .singleStep x y n s :=
  (mem_spriteCells (m := .singleStep)).symm

/-- A sprite in the full wrap mode falls on cells (R131). -/
theorem lt_of_mem_spriteCells_full {k : Nat} (h : k ∈ spriteCells .full x y n s) : k < 2048 := by
  obtain ⟨_, -, _, -, -, rfl⟩ := mem_spriteCells.1 h
  exact pixelIndex_full_lt _ _

/-- The sprite is a matter of the registers, I and memory. -/
theorem spriteCells_congr (hreg : ∀ r, t.reg r = s.reg r) (hi : t.i = s.i) (hbyte : ∀ a, t.byte a = s.byte a) :
    spriteCells m x y n t = spriteCells m x y n s := by
  simp only [spriteCells, spriteRows, State.bytes, dataAddr, hreg, hi, hbyte]

/-! ### DRW within the cells -/

/-- What DRW does to the state when the sprite falls on these cells (R132): it inverts them and no other, VF tells whether one
of them was on, and a redraw is requested. -/
structure State.Inverts (s t : State) (cells : List Nat) : Prop where
  cell : ∀ k, t.fb.cell k = (s.fb.cell k ^^ decide (k ∈ cells))
  flag : t.reg 15 = if ∃ k ∈ cells, s.fb.cell k = true then 1 else 0
  redraw : t.redraw = true
  frame : Frame (fun p => p = .reg 15 ∨ p = .redraw ∨ ∃ k, p = .cell k) s t

/-- A blit all of whose pixels are cells inverts them: no two of them are the same cell (R132, R133 (a)). -/
theorem blit_inverts (hlt : ∀ k ∈ spriteCells m x y n s, k < 2048) :
    ∃ t, blit m x y n s = .next t ∧ s.Inverts t (spriteCells m x y n s) := by
  have hrows : (spriteRows s n).length ≤ 15 := by
    rw [length_spriteRows]; exact Nat.le_of_lt_succ n.isLt
  obtain ⟨fb, erased, heq, hcell, herased⟩ := setPixels_nodup (fb := s.fb) hlt (nodup_indices_spritePixels hrows hlt)
  have hflag : flagByte erased = if ∃ k ∈ spriteCells m x y n s, s.fb.cell k = true then 1 else 0 :=
    if_congr herased rfl rfl
  exact ⟨_, blit_of_some heq, hcell, (State.reg_setReg_self s VF _).trans hflag, rfl,
    (frame_setReg s VF _).seq (frame_redrawWith _ fb) (only_le (by simp)) fun _ => .inr⟩

/-- DRW in range, or with no rows, is the blit (R132, decision D23). -/
theorem exec_drw_in_range (h : n = 0 ∨ dataAddr s (n.toNat - 1) ≤ 4095) :
    exec (.drw x y n) s = blit s.cfg.wrapMode x y n s := by
  by_cases hn : n = 0
  · exact execDrw_no_rows hn
  · exact (execDrw_rows hn).trans (guardRange_inside (Nat.lt_succ_of_le (h.resolve_left hn)))

/-- DRW in range, in a machine of either wrap mode, with a sprite that falls on cells alone (R132, R135). -/
theorem exec_drw_inverts (hmode : s.cfg.wrapMode = m) (hin : n = 0 ∨ dataAddr s (n.toNat - 1) ≤ 4095)
    (hlt : ∀ k ∈ spriteCells m x y n s, k < 2048) :
    ∃ t, exec (.drw x y n) s = .next t ∧ s.Inverts t (spriteCells m x y n s) := by
  rw [exec_drw_in_range hin, hmode]
  exact blit_inverts hlt

/-- The cells that change are those inverted. -/
theorem State.Inverts.cell_ne_iff {cells : List Nat} (h : s.Inverts t cells) (k : Nat) :
    t.fb.cell k ≠ s.fb.cell k ↔ k ∈ cells := by
  rw [h.cell]
  by_cases hk : k ∈ cells <;> simp [hk]

/-- A cell is erased exactly when it is inverted and was on. -/
theorem State.Inverts.erased_iff {cells : List Nat} (h : s.Inverts t cells) :
    (∃ k, s.fb.cell k = true ∧ t.fb.cell k = false) ↔ ∃ k ∈ cells, s.fb.cell k = true := by
  refine exists_congr fun k => ?_
  rw [h.cell, and_comm]
  refine and_congr_left fun hon => ?_
  simp [hon]

/-- VF is the collision flag (R132, R133 (c)). -/
theorem State.Inverts.flag_cases {cells : List Nat} (h : s.Inverts t cells) :
    t.reg 15 = 1 ∧ (∃ k, s.fb.cell k = true ∧ t.fb.cell k = false) ∨
      t.reg 15 = 0 ∧ ¬ ∃ k, s.fb.cell k = true ∧ t.fb.cell k = false := by
  rw [h.erased_iff, h.flag]
  split
  next hon => exact .inl ⟨rfl, hon⟩
  next hoff => exact .inr ⟨rfl, hoff⟩

/-- Settles O46: in the full mode every sprite falls on cells; out of range DRW has a cause to fault. -/
theorem drawInvertsTheSpritesCells : Obligations.DrawInvertsTheSpritesCells := by
  intro x y n s
  refine ⟨Laws.lookup_xyn rfl rfl, fun hfull hin => ?_,
    fun hn hout => exec_raises_spec (.sprite x y n hn (Nat.not_lt.2 hout))⟩
  obtain ⟨t, ht, h⟩ := exec_drw_inverts hfull hin fun _ => lt_of_mem_spriteCells_full
  exact ⟨t, ht, fun k => (h.cell_ne_iff k).trans lit_iff_mem.symm, h.flag_cases, h.redraw, h.frame⟩

/-- Settles O50: the hypothesis says that the sprite falls on cells. -/
theorem oneStepWrapDrawsWithinTheCells : Obligations.OneStepWrapDrawsWithinTheCells := by
  intro x y n s hone hin hcells
  obtain ⟨t, ht, h⟩ := exec_drw_inverts hone hin fun k hk => Nat.lt_succ_of_le (hcells k (litOnce_iff_mem.2 hk))
  exact ⟨t, ht, fun k => (h.cell_ne_iff k).trans litOnce_iff_mem.symm, h.flag_cases, h.redraw, h.frame⟩

/-! ### Two draws -/

/-- Inverting the same cells twice restores the framebuffer (R133 (b)), also with other registers between. -/
theorem State.Inverts.restores {t' u : State} {cells : List Nat} (h : s.Inverts t cells)
    (h' : t'.Inverts u cells) (hfb : t'.fb = t.fb) (k : Nat) : u.fb.cell k = s.fb.cell k := by
  rw [h'.cell, hfb, h.cell, Bool.xor_assoc, Bool.xor_self, Bool.xor_false]

/-- On a clear framebuffer nothing is erased (R133 (d)). -/
theorem State.Inverts.flag_of_clear {cells : List Nat} (h : s.Inverts t cells) (hclear : ∀ k, s.fb.cell k = false) :
    t.reg 15 = 0 := by
  rw [h.flag, if_neg (by simp [hclear])]

/-- Drawn again on a clear framebuffer, the sprite erases itself if it has a set bit (X6). -/
theorem State.Inverts.flag_of_clear_twice {t' u : State} {cells : List Nat} (h : s.Inverts t cells)
    (h' : t'.Inverts u cells) (hfb : t'.fb = t.fb) (hclear : ∀ k, s.fb.cell k = false) : u.reg 15 = 1 ↔ ∃ k, k ∈ cells := by
  rw [h'.flag, hfb]
  simp [h.cell, hclear]

/-- Settles O47: the first draw leaves I and memory, so that the second inverts the same cells. -/
theorem drawingTwiceRestoresTheFramebuffer : Obligations.DrawingTwiceRestoresTheFramebuffer := by
  intro x y n s hfull hin
  obtain ⟨t, ht, h⟩ := exec_drw_inverts hfull hin fun _ => lt_of_mem_spriteCells_full
  have hi : t.i = s.i := h.frame .i (by simp)
  have hbyte (a : Nat) : t.byte a = s.byte a := h.frame (.mem a) (by simp)
  have hcfg : t.cfg = s.cfg := h.frame .cfg (by simp)
  have hcells : spriteCells .full x y n { t with v := s.v } = spriteCells .full x y n s :=
    spriteCells_congr (fun _ => rfl) hi hbyte
  obtain ⟨u, hu, h'⟩ := exec_drw_inverts (s := { t with v := s.v }) (x := x) (y := y) (n := n) (hcfg ▸ hfull)
    (by simpa only [dataAddr, hi] using hin) fun _ => lt_of_mem_spriteCells_full
  rw [hcells] at h'
  refine ⟨t, u, ht, hu, h.restores h' rfl, fun hclear => ⟨h.flag_of_clear hclear, ?_⟩⟩
  simpa only [lit_iff_mem] using h.flag_of_clear_twice h' rfl hclear

/-! ### The two wrap modes -/

/-- One adjustment is enough below twice the span (R135). -/
theorem wrapOnce_eq_mod {p span : Nat} (h : p < 2 * span) : wrapOnce p span = p % span := by
  unfold wrapOnce
  split
  next hge => rw [Nat.mod_eq_sub_mod hge, Nat.mod_eq_of_lt (by omega)]
  next hlt => exact (Nat.mod_eq_of_lt (Nat.not_le.1 hlt)).symm

/-- Within twice the screen the two modes name the same cell (R135). -/
theorem pixelIndex_singleStep_eq_full {px py : Nat} (hx : px < 128) (hy : py < 64) :
    pixelIndex .singleStep px py = pixelIndex .full px py := by
  simp only [pixelIndex, wrapOnce_eq_mod (span := Config.fbWidth) hx, wrapOnce_eq_mod (span := Config.fbHeight) hy]

/-- `SetPixel` is a matter of the cells alone. -/
theorem setPixels_congr {ps : List (Nat × Nat)} (h : ∀ p ∈ ps, pixelIndex m p.1 p.2 = pixelIndex m' p.1 p.2) :
    setPixels m fb ps = setPixels m' fb ps := by
  induction ps generalizing fb with
  | nil => rfl
  | cons p ps ih =>
    obtain ⟨hp, hps⟩ := List.forall_mem_cons.1 h
    simp only [setPixels, setPixel, hp, ih hps]

/-- Settles O48: eight columns from 120 and n rows from 64 - n stay within twice the screen. -/
theorem wrapModesAgreeNearTheScreen : Obligations.WrapModesAgreeNearTheScreen := by
  intro x y n s hx hy
  have hpixels : ∀ p ∈ spritePixels (s.reg x).toNat (s.reg y).toNat (spriteRows s n),
      pixelIndex .singleStep p.1 p.2 = pixelIndex .full p.1 p.2 := by
    intro p hp
    obtain ⟨row, hrow, col, hcol, -, rfl⟩ := mem_spritePixels_spriteRows.1 hp
    exact pixelIndex_singleStep_eq_full (by omega) (by omega)
  simp only [drawSprite, blit, setPixels_congr hpixels]

/-- The blit is refused exactly when the sprite has a set bit off the cells (R135). -/
theorem blit_refused_iff :
    blit s.cfg.wrapMode x y n s = .refused .pixelOutsideFramebuffer ↔ DrawsOffCells x y n s := by
  refine ⟨fun h => ?_, blit_of_none⟩
  obtain ⟨t, ht, -⟩ | ⟨hoff, -⟩ := blit_cases x y n s
  · rw [ht] at h; cases h
  · exact hoff

/-- In the one-step mode a sprite is off the cells exactly when a set bit falls on an index above 2047 (R135). -/
theorem drawsOffCells_iff (hone : s.cfg.wrapMode = .singleStep) :
    DrawsOffCells x y n s ↔ ∃ k, 2047 < k ∧ LitOnce s x y n k := by
  refine ⟨DrawsOffCells.exists_litOnce, ?_⟩
  rintro ⟨_, hk, hlit⟩
  obtain ⟨p, hp, rfl⟩ := litOnce_iff.1 hlit
  rw [DrawsOffCells, hone]
  exact setPixels_eq_none_iff.2 ⟨p, hp, hk⟩

/-- Settles O49: in range DRW is the blit, which is refused for a pixel off the cells. -/
theorem oneStepWrapRefusesBeyondTheCells : Obligations.OneStepWrapRefusesBeyondTheCells := by
  intro x y n s hone hin
  rw [exec_drw_in_range hin]
  exact blit_refused_iff.trans (drawsOffCells_iff hone)

end Sys2Proof.Machine

/-! The keypad and the timers: the key skips, the timer reads and writes, `KeyEvent`, and the key wait from LD x,K to the
step that ends it (R81, R140 to R147). -/

namespace Sys2Proof.Machine

open Sys2Proof

variable {s : State}

/-! ### The key skips -/

/-- `KeyDown` is what R147 says of a byte as a key number. -/
theorem keyDown_iff (s : State) (b : Byte) : s.keyDown b = true ↔ KeyIsDown s b := by
  constructor
  · intro h
    unfold State.keyDown at h
    split at h
    next hb => exact ⟨⟨b.toNat, hb⟩, rfl, h⟩
    next => cases h
  · rintro ⟨⟨k, hk⟩, rfl, hdown⟩
    rwa [State.keyDown, dif_pos hk]

/-- A skip under a condition changes PC alone: two further, mod 65536, where P makes the condition true, and not at all where Q
makes it false (R98, decision D11). -/
theorem skipIf_spec_of_cases {c : Bool} {P Q : Prop} (hP : P → c = true) (hQ : Q → c = false) :
    ∃ t, (.next (s.skipIf c) : Result) = .next t ∧ Frame (only [.pc]) s t ∧
      (P → t.pc.toNat = (s.pc.toNat + 2) % 65536) ∧ (Q → t.pc = s.pc) := by
  refine ⟨_, rfl, frame_skipIf s c, fun h => ?_, fun h => ?_⟩
  · simp [State.skipIf_eq, hP h, BitVec.toNat_add]
  · simp [State.skipIf_eq, hQ h]

/-- Settles O51: each is a skip under `KeyDown` or its negation. -/
theorem keySkips : Obligations.KeySkips := by
  intro x s
  have hdown : KeyIsDown s (s.reg x) → s.keyDown (s.reg x) = true := (keyDown_iff s _).2
  have hup : ¬ KeyIsDown s (s.reg x) → s.keyDown (s.reg x) = false := fun h =>
    Bool.eq_false_iff.2 (mt (keyDown_iff s _).1 h)
  exact ⟨Laws.lookup_x rfl rfl, skipIf_spec_of_cases hdown hup, Laws.lookup_x rfl rfl,
    skipIf_spec_of_cases (fun h => by rw [hup h]; rfl) (fun h => by rw [hdown h]; rfl)⟩

/-! ### The timer reads and writes -/

/-- Settles O52: a write of Vx, which the closing phases leave while they count DT down. -/
theorem timerReadBeforeTheTick : Obligations.TimerReadBeforeTheTick := by
  intro x s
  obtain ⟨u, hu, hdt, -, -, -, -, hframe⟩ := phasesAroundTheInstruction.2 (s.setReg x s.dt)
  have hreg : u.reg x = (s.setReg x s.dt).reg x := hframe (.reg x) (by simp [only])
  exact ⟨Laws.lookup_x rfl rfl, _, u, rfl, State.reg_setReg_self s x _, frame_setReg s x _, hu,
    hreg.trans (State.reg_setReg_self s x _), hdt⟩

/-- Settles O53: each is a write of its timer, which the closing phases count down; the level is that of ST after it. -/
theorem timerWritesAreTicked : Obligations.TimerWritesAreTicked := by
  intro x s
  obtain ⟨u, hu, hdt, -⟩ := phasesAroundTheInstruction.2 (s.setDt (s.reg x))
  obtain ⟨w, hw, -, hst, -, -, htone, -⟩ := phasesAroundTheInstruction.2 (s.setSt (s.reg x))
  refine ⟨Laws.lookup_x rfl rfl, ⟨_, u, rfl, rfl, frame_setDt s _, hu, hdt⟩,
    Laws.lookup_x rfl rfl, ⟨_, w, rfl, rfl, frame_setSt s _, hw, hst, ?_⟩⟩
  rw [htone, hst, State.setSt_st]
  exact decide_eq_decide.2 Nat.sub_pos_iff_lt

/-! ### The key state -/

/-- A `KeyEvent` sets or clears the flag of its key and leaves the other flags (R146). -/
theorem State.getElem_keys_keyEvent (s : State) (k : Nibble) (e : KeyAction) (j : Fin 16) :
    (s.keyEvent k e).keys[j] = if j.val = k.toNat then decide (e = .pressed) else s.keys[j] := by
  cases e <;> exact (Vector.getElem_set k.isLt j.isLt).trans (by simp [eq_comm])

/-- A `KeyEvent` changes the key state alone (R146). -/
theorem frame_keyEvent (s : State) (k : Nibble) (e : KeyAction) :
    Frame (fun p => p = .held ∨ p = .key ⟨k.toNat, k.isLt⟩) s (s.keyEvent k e) := by
  intro p hp
  cases p with
  | held => exact absurd (.inl rfl) hp
  | key j =>
    have hj : j.val ≠ k.toNat := fun h => hp (.inr (congrArg Part.key (Fin.ext h)))
    exact (s.getElem_keys_keyEvent k e j).trans (if_neg hj)
  | _ => cases e <;> rfl

/-- Settles O55: the flags and the frame are those of any `KeyEvent`, and `held` is by the event. -/
theorem keyEventSetsTheKeyState : Obligations.KeyEventSetsTheKeyState := fun s k j =>
  ⟨s.getElem_keys_keyEvent k .pressed j, rfl, s.getElem_keys_keyEvent k .released j, rfl,
    frame_keyEvent s k .pressed, frame_keyEvent s k .released⟩

/-! ### The key wait -/

/-- Settles O54: the latch and the mode, and the frame of the two. -/
theorem keyWaitBegins : Obligations.KeyWaitBegins := fun x s =>
  ⟨Laws.lookup_x rfl rfl, _, rfl, rfl, rfl, frame_ldXK s x⟩

/-- The state LD x,K leaves as its step ends: the wait begun with x latched, PC past the instruction, the timers ticked (R71,
R143). -/
theorem step_ldXK {x : Reg} (hmode : s.mode = .running) (h : fetched s = some (.ldXK x)) :
    ∃ t, step s = .next t ∧ t.mode = .waitingForKey ∧ t.waitX = x ∧ t.held = s.held ∧ (∀ r, t.reg r = s.reg r) ∧
      t.pc.toNat = (s.pc.toNat + 2) % 65536 ∧ t.dt.toNat = s.dt.toNat - 1 ∧ t.st.toNat = s.st.toNat - 1 := by
  obtain ⟨b, hstep⟩ := step_of_fetched hmode h
  obtain ⟨hpc, -⟩ := phasesAroundTheInstruction.1 b s
  obtain ⟨t, hfinish, hdt, hst, -, -, -, hframe⟩ :=
    phasesAroundTheInstruction.2 { advance b s with waitX := x, mode := .waitingForKey }
  have htpc : t.pc = (advance b s).pc := hframe .pc (by simp [only])
  exact ⟨t, hstep.trans hfinish, hframe .mode (by simp [only]), hframe .waitX (by simp [only]),
    hframe .held (by simp [only]), fun r => hframe (.reg r) (by simp [only]), by rw [htpc, hpc], hdt, hst⟩

@[simp] theorem toNat_zextNibble (k : Nibble) : (zextNibble k).toNat = k.toNat :=
  BitVec.toNat_setWidth_of_le (by decide)

/-- A host's `Step` that answers a next state replies with its output record (R70, R82). -/
theorem perform_step {t : State} (h : step s = .next t) : s.perform .step = .next (t, .output t.out) := by
  simp only [State.perform, h]

/-- What a key wait changes from its first poll until the press of k and the poll after it have ended it. -/
def wakeWrites (x : Reg) (k : Nibble) : Part → Prop :=
  only [.reg x, .mode, .held, .key ⟨k.toNat, k.isLt⟩, .outFault, .outFrame, .outTrace, .outTone]

/-- A poll with no key held changes the output record alone (R81). -/
theorem frame_waitingStep_of_none (h : s.held = none) :
    Frame (only [.outFault, .outFrame, .outTrace, .outTone]) s (waitingStep s) := by
  rw [waitingStep_of_none h]
  intro p hp
  cases p with
  | outFault | outFrame | outTrace | outTone => exact absurd (by simp [only]) hp
  | _ => rfl

/-- A key pressed in the wait ends it with the next poll (R81, R146). -/
theorem press_then_poll (hmode : s.mode = .waitingForKey) (k : Nibble) :
    ∃ t rs, s.performAll [.keyEvent k .pressed, .step] = .next (t, rs) ∧ t.reg s.waitX = zextNibble k ∧
      t.mode = .running ∧ Frame (wakeWrites s.waitX k) s t := by
  have hheld : (s.keyEvent k .pressed).held = some k := rfl
  have hmode' : (s.keyEvent k .pressed).mode = .waitingForKey := hmode
  have hstep := perform_step (step_of_waiting hmode')
  refine ⟨_, _, performAll_cons_next_iff.2 ⟨_, _, _, rfl, performAll_cons_next_iff.2 ⟨_, _, _, hstep, rfl, rfl⟩, rfl⟩,
    reg_waitingStep hheld, (waitingStep_runs_iff hmode').2 (by simp [hheld]),
    (frame_keyEvent s k .pressed).seq (frame_waitingStep hheld) ?_ (only_le ?_)⟩
  · rintro p (rfl | rfl) <;> simp [wakeWrites, only]
  · simp [wakeWrites, only, State.keyEvent]

/-- Any number of polls with no key held leave the wait as it was, and then a key pressed ends it with the next poll (R81, R146).
By induction on the number of polls. -/
theorem polls_then_press_then_poll (hmode : s.mode = .waitingForKey) (hheld : s.held = none) (k : Nibble) (polls : Nat) :
    ∃ t rs, s.performAll (List.replicate polls .step ++ [.keyEvent k .pressed, .step]) = .next (t, rs) ∧
      t.reg s.waitX = zextNibble k ∧ t.mode = .running ∧ Frame (wakeWrites s.waitX k) s t := by
  induction polls generalizing s with
  | zero => exact press_then_poll hmode k
  | succ polls ih =>
    have hpoll := frame_waitingStep_of_none hheld
    have hmode' : (waitingStep s).mode = s.mode := hpoll .mode (by simp [only])
    have hheld' : (waitingStep s).held = s.held := hpoll .held (by simp [only])
    have hwaitX : (waitingStep s).waitX = s.waitX := hpoll .waitX (by simp [only])
    obtain ⟨t, rs, hrest, hreg, hruns, hframe⟩ := ih (hmode'.trans hmode) (hheld'.trans hheld)
    rw [hwaitX] at hreg hframe
    exact ⟨t, _, performAll_cons_next_iff.2 ⟨_, _, _, perform_step (step_of_waiting hmode), hrest, rfl⟩, hreg, hruns,
      hpoll.seq hframe (only_le (by simp [wakeWrites, only])) fun _ => id⟩

/-- Settles O20: LD x,K begins the wait, and of the registers, PC and the timers what ends it writes the latched register
alone. -/
theorem keyWaitEndsWithTheKeyPressed : Obligations.KeyWaitEndsWithTheKeyPressed := by
  intro s x k polls hmode hheld hfetched
  obtain ⟨u, hstep, hwait, rfl, huheld, hureg, hupc, hudt, hust⟩ := step_ldXK hmode hfetched
  obtain ⟨t, rs, hrest, hreg, hruns, hframe⟩ := polls_then_press_then_poll hwait (huheld.trans hheld) k polls
  have hpc : t.pc = u.pc := hframe .pc (by simp [wakeWrites, only])
  have hdt : t.dt = u.dt := hframe .dt (by simp [wakeWrites, only])
  have hst : t.st = u.st := hframe .st (by simp [wakeWrites, only])
  have hothers (r : Reg) (hr : r ≠ u.waitX) : t.reg r = u.reg r := hframe (.reg r) (by simp [wakeWrites, only, hr])
  exact ⟨t, _, performAll_cons_next_iff.2 ⟨u, _, rs, perform_step hstep, hrest, rfl⟩, by rw [hreg, toNat_zextNibble], hruns,
    by rw [hpc, hupc], by rw [hdt, hudt], by rw [hst, hust], fun r hr => (hothers r hr).trans (hureg r)⟩

end Sys2Proof.Machine

/-! The exceptions: an undecodable word, the numeric fault codes, and a `Load` that does not fit (R150, R151, R155). -/

namespace Sys2Proof.Machine

open Sys2Proof

variable {s : State}

/-! ### A word that matches no key -/

/-- A Running step that fetches such a word advances, reports DecodeFault with its address and the word, and ticks (R151). -/
theorem step_of_lookup_none {op : Word} (hmode : s.mode = .running) (hredraw : s.redraw = false) (hfetch : fetch s = .ok op)
    (hlookup : lookup s.cfg.opKeys op = none) :
    step s = .next (tickPhase ((advance (.invalidOpcode op) s).withFault (.decodeFault s.pc op))) := by
  rw [step_of_running hmode, runningStep_of_lookup_none hfetch hlookup, finish_raise_advance hredraw]

/-- Settles O14: the step is the advance, the fault and the tick, whose frames make up its own. -/
theorem undecodableWordIsSkipped : Obligations.UndecodableWordIsSkipped := fun s _ hmode hredraw hfetch hlookup =>
  ⟨_, step_of_lookup_none hmode hredraw hfetch hlookup, rfl, rfl, rfl, BitVec.toNat_add _ _, countDown_toNat _,
    countDown_toNat _, frame_raise_advance s _ _⟩

/-! ### The codes -/

/-- Settles O24: the code of each constructor by its line of the table. -/
theorem faultCodesAreTheTable : Obligations.FaultCodesAreTheTable := ⟨rfl, fun _ _ _ _ => ⟨rfl, rfl, rfl, rfl, rfl⟩⟩

/-! ### A Load that does not fit -/

/-- A program that would end beyond memory is refused with its length (R155). -/
theorem load_too_long {bs : List Byte} (h : 4096 < 512 + bs.length) : s.load bs = .error (.loadError bs.length) :=
  if_neg (Nat.not_le_of_lt h)

/-- Settles O58: the refused `Load` answers the state it was given. -/
theorem loadErrorChangesNothing : Obligations.LoadErrorChangesNothing := by
  intro s bytes h
  simp only [State.perform, load_too_long h]

end Sys2Proof.Machine
